-- ==== Sys2Proof/Word.lean ====
section
/-! DEFINITION. The two word types of the block: a PIX byte (`u8`) and a MSG word or REG register (`u32`),
00_scope.md R9. -/

namespace Sys2Proof

/-- `u8`: one channel of a pixel, one byte of PIX (00_scope.md R9, 20_memory.md R50). -/
abbrev Byte := BitVec 8

/-- `u32`: one host-visible register, one word of MSG (00_scope.md R8, R9). -/
abbrev Word := BitVec 32

end Sys2Proof
end

