-- ==== Sys2Proof/Config.lean ====
section
/-! DEFINITION. What the source fixes (00_scope.md R5), what it leaves to the implementation (R6, R7), and the
free values of an abandoned command (70_reset_and_hazards.md R243). -/

namespace Sys2Proof

/-! ## The fixed scheme: 00_scope.md R5 -/

/-- Each pixel is red, green, blue, alpha (R5). -/
@[simp] abbrev channels : Nat := 4
/-- Each channel is an 8-bit unsigned integer (R5). -/
@[simp] abbrev channelBits : Nat := 8
/-- The length prefix is 32 bits wide (R5). -/
@[simp] abbrev prefixBits : Nat := 32
/-- One payload bit per pixel (R5). -/
@[simp] abbrev bitsPerPixel : Nat := 1
/-- The bit goes in the red channel (R5). -/
@[simp] abbrev carrierChannel : Nat := 0
/-- Each payload byte contributes 8 bits (R5). -/
@[simp] abbrev byteBits : Nat := 8
/-- A payload's bit length must not exceed this (R5, 40_framer.md R112). -/
@[simp] abbrev maxBitLength : Nat := 2 ^ 32 - 1

/-- The sizes an implementation chooses (R6). They are plain data, held in the state and changed by no step, so that
a statement about every state is a statement about every size (log 2). -/
structure Config where
  /-- `PIX_BYTES`: the number of bytes of PIX. -/
  pixBytes : Nat
  /-- `MSG_WORDS`: the number of words of MSG. -/
  msgWords : Nat
deriving DecidableEq, Repr

/-- `MAX_PIXELS = PIX_BYTES / 4` (R6). -/
@[simp] abbrev Config.maxPixels (c : Config) : Nat := c.pixBytes / channels

/-- PIX_BYTES "is a multiple of 4" (R6). -/
abbrev Config.pixWhole (c : Config) : Prop := c.pixBytes % channels = 0

/-- "MSG_WORDS >= floor(max(MAX_PIXELS - 32, 0) / 8)" (R7); subtraction of natural numbers stops at 0. -/
abbrev Config.msgFits (c : Config) : Prop := (c.maxPixels - prefixBits) / byteBits ≤ c.msgWords

/-- A conforming implementation's sizes (R6, R7). -/
abbrev Config.wf (c : Config) : Prop := c.pixWhole ∧ c.msgFits

/-- The sizes of the programs of 95_test_vectors.md, section 3: PIX_BYTES = 1024, MSG_WORDS = 256. Only State.reset
uses them. DESIGN CHOICE (log 2): unsafe for a statement that rested on them. -/
def Config.ofPrograms : Config := { pixBytes := 1024, msgWords := 256 }

/-- FREE VALUE (70_reset_and_hazards.md R243, log 9): what a red byte holds that an abandoned ENCODE could have
written, as the `k`-th value drawn. It has no body, so nothing is known of it. -/
opaque Config.freeByte (k : Nat) : Byte

/-- FREE VALUE (70_reset_and_hazards.md R243, log 9): what a MSG word holds that an abandoned DECODE could have
written, as the `k`-th value drawn. -/
opaque Config.freeWord (k : Nat) : Word

end Sys2Proof
end

