-- ==== Sys2Proof/Syntax.lean ====
section
/-! DEFINITION. The commands: one constructor for each row of spec/opcode_table.json (30_encoding.md R82). -/

namespace Sys2Proof

/-- The three CMD words with a meaning (30_encoding.md R82). A command has no fields; its operands are registers and
memories (R81, R91). -/
inductive Instr where
  /-- CMD word 0x00000000: no effect (43_host_interface.md R191). -/
  | nop
  /-- CMD word 0x00000001: hide the text of MSG in PIX (41_encoder.md R139). -/
  | encode
  /-- CMD word 0x00000002: read a text back from PIX into MSG (42_decoder.md R170). -/
  | decode
deriving DecidableEq, Repr

end Sys2Proof
end

