-- ==== Sys2Proof/Machine/Access.lean ====
section
/-! DEFINITION. What the outside world does to the block: the host's accesses (43_host_interface.md R190), the
POLL loop (30_encoding.md R96) and the reset input (70_reset_and_hazards.md R240), as plain data. -/

namespace Sys2Proof.Machine

/-- The register names of REG (10_state.md R22). -/
inductive Reg where
  | cmd | status | width | height | msgLen | bitLen | reserved18 | reserved1C
deriving DecidableEq, Repr

/-- One host access, as the tuple of 30_encoding.md R95: space, direction, offset or index, width in bits, value. A
conforming host uses width 32 for REG, 8 for PIX and 32 for MSG (20_memory.md R56). BUS_MAP is left out (DEDUCED, log 13). -/
inductive Access where
  /-- `WR REG.<name>, v`: a write at a byte offset of REG. -/
  | regWrite (offset width : Nat) (v : Word)
  /-- `RD REG.<name>`: a read at a byte offset of REG. -/
  | regRead (offset width : Nat)
  /-- `WRB PIX[a], v`. -/
  | pixWrite (a width : Nat) (v : Byte)
  /-- `RDB PIX[a]`. -/
  | pixRead (a width : Nat)
  /-- `WRW MSG[j], v`. -/
  | msgWrite (j width : Nat) (v : Word)
  /-- `RDW MSG[j]`. -/
  | msgRead (j width : Nat)
deriving DecidableEq, Repr

/-- One input from outside. -/
inductive Input where
  /-- One host access. -/
  | access (a : Access)
  /-- `POLL`: read STATUS again and again until BUSY = 0, "the only loop" (30_encoding.md R96). -/
  | poll
  /-- The reset input (70_reset_and_hazards.md R240). -/
  | reset
deriving DecidableEq, Repr

/-- Who moves next while a command is pending: the free value of LATENCY (70_reset_and_hazards.md R252, log 3). -/
inductive Turn where
  /-- The outside world moves and the engine waits. -/
  | host
  /-- The engine takes its one enabled transition (43_host_interface.md R196). -/
  | engine
deriving DecidableEq, Repr

end Sys2Proof.Machine
end

