-- ==== Sys2Proof/WellFormed.lean ====
section
/-! DEFINITION. The checks on what can be written down wrongly: a command word's fields, and a host access. The
sizes of an implementation are checked by Config.wf. -/

namespace Sys2Proof

/-- The CMD format (30_encoding.md R81). -/
structure CmdFields where
  /-- OP, bits [1:0]. -/
  op : BitVec 2
  /-- RSVD, bits [31:2]. -/
  rsvd : BitVec 30
deriving DecidableEq, Repr

/-- "`w[31:2]` is reserved and must be zero" (10_state.md R23, 30_encoding.md R83). -/
def CmdFields.rsvdZero (f : CmdFields) : Bool := f.rsvd == 0

/-- OP = 11 is reserved (30_encoding.md R82, R93). -/
def CmdFields.opAssigned (f : CmdFields) : Bool := f.op != 3

/-- A CMD word that a conforming host may write. -/
def CmdFields.wf (f : CmdFields) : Bool := f.rsvdZero && f.opAssigned

/-- A command has no fields, so every command is well formed (30_encoding.md R81). -/
def Instr.wf : Instr → Bool
  | .nop => true
  | .encode => true
  | .decode => true

namespace Machine

/-- The only widths: 32 bits for REG, 8 for PIX, 32 for MSG (20_memory.md R56). -/
def Access.widthOk : Access → Bool
  | .regWrite _ w _ => w == 32
  | .regRead _ w => w == 32
  | .pixWrite _ w _ => w == 8
  | .pixRead _ w => w == 8
  | .msgWrite _ w _ => w == 32
  | .msgRead _ w => w == 32

/-- REG offsets are the multiples of 4 in 0x00..0x1C (10_state.md R33). -/
def Access.alignedOk : Access → Bool
  | .regWrite o _ _ => o % 4 == 0
  | .regRead o _ => o % 4 == 0
  | .pixWrite _ _ _ => true
  | .pixRead _ _ => true
  | .msgWrite _ _ _ => true
  | .msgRead _ _ => true

/-- An access stays inside its space (20_memory.md R58). -/
def Access.rangeOk (c : Config) : Access → Bool
  | .regWrite o _ _ => o ≤ 0x1C
  | .regRead o _ => o ≤ 0x1C
  | .pixWrite a _ _ => a < c.pixBytes
  | .pixRead a _ => a < c.pixBytes
  | .msgWrite j _ _ => j < c.msgWords
  | .msgRead j _ => j < c.msgWords

/-- An access that is no BadWidth and no OutOfRange violation (70_reset_and_hazards.md R250). -/
def Access.wf (c : Config) (a : Access) : Bool := a.widthOk && a.alignedOk && a.rangeOk c

end Machine

end Sys2Proof
end

