-- ==== Sys2Proof/Decode.lean ====
section
/-! DEFINITION. The decoder of a CMD word, total, refusing by name, and the encoder (30_encoding.md R81 to R83, R93). -/

namespace Sys2Proof

/-- Why a CMD word is reserved (30_encoding.md R93). -/
inductive DecodeError where
  /-- RSVD is not zero (R83). -/
  | reservedBits
  /-- OP = 11 with RSVD = 0 (R82). -/
  | reservedOp
deriving DecidableEq, Repr

/-- The fields of a CMD word: OP [1:0], RSVD [31:2] (30_encoding.md R81). -/
def cmdFields (w : Word) : CmdFields := { op := w.extractLsb' 0 2, rsvd := w.extractLsb' 2 30 }

/-- The command that an OP value names when RSVD = 0 (30_encoding.md R82). -/
def decodeOp (op : BitVec 2) : Except DecodeError Instr :=
  if op = 0b00#2 then .ok .nop
  else if op = 0b01#2 then .ok .encode
  else if op = 0b10#2 then .ok .decode
  else .error .reservedOp

/-- The decoder: "each must match the whole 32-bit word" (30_encoding.md R82, R83, R93). -/
def decode (w : Word) : Except DecodeError Instr :=
  if (cmdFields w).rsvdZero then decodeOp (cmdFields w).op else .error .reservedBits

/-- The CMD word of a command, from the opcode map (30_encoding.md R82). -/
def encode : Instr → Word
  | .nop => 0x00000000#32
  | .encode => 0x00000001#32
  | .decode => 0x00000002#32

/-- The decoder over the opcode table's numbering of bits: `nbits` bits given, every bit above them 0. A command is
one 32-bit word (30_encoding.md R80), written whole, so no byte order arises. -/
def decodeTableWord (nbits w : Nat) : Option Instr :=
  if nbits ≤ 32 then
    match decode (BitVec.ofNat 32 (w % 2 ^ nbits)) with
    | .ok i => some i
    | .error _ => none
  else none

end Sys2Proof
end

