-- ==== Sys2Proof/Machine/State.lean ====
section
/-! DEFINITION. The state of the block (10_state.md), the reasons a run stops (70_reset_and_hazards.md R250), and the
state after power-on reset (10_state.md R40). Everything is plain data. -/

namespace Sys2Proof.Machine

/-- `ModelFault(reason)`: the hardware's behaviour is unspecified because a conforming host never causes it
(00_scope.md R14, 70_reset_and_hazards.md R250). Every one is SAFE: the model stops where the hardware may go on. -/
inductive Fault where
  /-- Raised by a write to CMD, WIDTH, HEIGHT or MSG_LEN while BUSY = 1 (R250). Safe. -/
  | busyWrite
  /-- Raised by a host access to PIX or MSG while BUSY = 1 (R250). Safe. -/
  | busyAccess
  /-- Raised by a write to CMD of a reserved word (R250, 30_encoding.md R93). Safe. -/
  | reservedCommand
  /-- Raised at an ENCODE or DECODE CMD write with `4 * WIDTH * HEIGHT > PIX_BYTES` (R250). Safe. -/
  | geometryOutOfRange
  /-- Raised at an ENCODE CMD write with `MSG_LEN > MSG_WORDS` (R250). Safe. -/
  | messageOutOfRange
  /-- Raised by an access outside REG, PIX or MSG, or at an unaligned REG offset (R250). Safe. -/
  | outOfRange
  /-- Raised by a host access of a width that is not its space's (R250). Safe. -/
  | badWidth
  /-- Raised by a read, by host or engine, of a location nothing has written since power-on (R249, R250). Safe. -/
  | uninitialised
deriving DecidableEq, Repr

/-- Why an instruction has no meaning. -/
inductive Refusal where
  /-- Raised by an arm of exec whose instruction has no meaning yet; no arm is one. Safe. -/
  | notModelled (mnemonic : String)
deriving DecidableEq, Repr

/-- The five error kinds, the architectural errors that end a command (60_exceptions.md R210). -/
inductive ErrorKind where
  | emptyPayload | invalidCharacter | capacityExceeded | truncatedHeader | malformedLength
deriving DecidableEq, Repr

/-- The operations the engine can have in progress (10_state.md R37). -/
inductive Command where
  | encode | decode
deriving DecidableEq, Repr

/-- The fields of STATUS (10_state.md R24). Its other bits read 0 and have no storage, and the host cannot write it, so
the fields are all there is; Status.word is the word a host reads (DEDUCED, log 12). -/
structure Status where
  /-- STATUS[0] (R25). -/
  busy : Bool
  /-- STATUS[1] (R26). -/
  done : Bool
  /-- STATUS[2] (R27). -/
  err : Bool
  /-- STATUS[6:4] (R28). -/
  errcode : BitVec 3
deriving DecidableEq, Repr

/-- The engine's hidden state (10_state.md R37). -/
structure Engine where
  /-- The operation in progress, if any. -/
  pending : Option Command
  /-- WIDTH as latched at the CMD write. -/
  w : Word
  /-- HEIGHT as latched at the CMD write. -/
  h : Word
  /-- MSG_LEN as latched at the CMD write. -/
  n : Word
deriving DecidableEq, Repr

/-- A memory: (address, value) pairs, addresses rising, only the locations written since power-on. A location that is
not listed holds no value (70_reset_and_hazards.md R249). -/
abbrev Memory (α : Type) := List (Nat × α)

/-- The state of the block. The last four fields are the model's own (INVENTORY.md, State). -/
structure State where
  /-- PIX_BYTES and MSG_WORDS (00_scope.md R6). No step changes them. -/
  cfg : Config
  /-- REG.WIDTH (10_state.md R29). -/
  width : Word
  /-- REG.HEIGHT (10_state.md R30). -/
  height : Word
  /-- REG.MSG_LEN (10_state.md R31). -/
  msgLen : Word
  /-- REG.BIT_LEN (10_state.md R32). -/
  bitLen : Word
  /-- REG.STATUS (10_state.md R24). -/
  status : Status
  /-- PIX, by byte offset (10_state.md R35). -/
  pix : Memory Byte
  /-- MSG, by word index (10_state.md R36). -/
  msg : Memory Word
  /-- The engine's hidden state (10_state.md R37). -/
  engine : Engine
  /-- The model's fault mark and the reason it records (10_state.md R38, log 6). -/
  faulted : Option Fault
  /-- What the outside world does next, oldest first (20_memory.md R61, log 4). -/
  inputs : List Input
  /-- Who moves next while a command is pending; when it is empty, the engine (70_reset_and_hazards.md R252, log 3). -/
  turns : List Turn
  /-- The value the last host read returned, a byte zero-extended (log 5). -/
  readData : Option Word
  /-- How many free values have been drawn (log 9). -/
  draws : Nat
deriving DecidableEq, Repr

/-- STATUS = 0x00000000: idle with no result (10_state.md R40). -/
def Status.reset : Status := { busy := false, done := false, err := false, errcode := 0 }

/-- The engine after reset: nothing pending (10_state.md R40). The latched operands are unspecified there and not
observable; the model names 0. DESIGN CHOICE (log 7). -/
def Engine.reset : Engine := { pending := none, w := 0, h := 0, n := 0 }

/-- The state after power-on reset: every register 0, PIX and MSG unwritten, no fault mark (10_state.md R40). The
sizes are log 2's; nothing is about to happen (log 3, log 4, log 5, log 9). -/
def State.reset : State where
  cfg := Config.ofPrograms
  width := 0
  height := 0
  msgLen := 0
  bitLen := 0
  status := Status.reset
  pix := []
  msg := []
  engine := Engine.reset
  faulted := none
  inputs := []
  turns := []
  readData := none
  draws := 0

end Sys2Proof.Machine
end

