-- ==== Sys2Proof/Machine/Flags.lean ====
section
/-! DEFINITION. Every status computation: the STATUS word (30_encoding.md R84), the error codes (R85), and the three
values the handshake and the engine give STATUS (43_host_interface.md R195, 41_encoder.md R140, 60_exceptions.md R220). -/

namespace Sys2Proof.Machine

/-- ERRCODE of an error kind (30_encoding.md R85, 60_exceptions.md R210). -/
def ErrorKind.code : ErrorKind → BitVec 3
  | .emptyPayload => 1
  | .invalidCharacter => 2
  | .capacityExceeded => 3
  | .truncatedHeader => 4
  | .malformedLength => 5

/-- The word a host reads: [31:7] 0, [6:4] ERRCODE, [3] 0, [2] ERR, [1] DONE, [0] BUSY (30_encoding.md R84). -/
def Status.word (s : Status) : Word :=
  0#25 ++ s.errcode ++ 0#1 ++ BitVec.ofBool s.err ++ BitVec.ofBool s.done ++ BitVec.ofBool s.busy

/-- After an accepted ENCODE or DECODE CMD write: BUSY set, the others cleared (43_host_interface.md R195). -/
def Status.started : Status := { busy := true, done := false, err := false, errcode := 0 }

/-- After a successful completion (41_encoder.md R140, 42_decoder.md R169). -/
def Status.succeeded : Status := { busy := false, done := true, err := false, errcode := 0 }

/-- After a command that ended with error `e` (60_exceptions.md R220). -/
def Status.failed (e : ErrorKind) : Status := { busy := false, done := false, err := true, errcode := e.code }

end Sys2Proof.Machine
end

