-- ==== Sys2Proof/Machine/Ops.lean ====
section
/-! DEFINITION. The named operations over memories and registers, error entry (60_exceptions.md R220), successful
completion, and the latch of an accepted command (43_host_interface.md R195). -/

namespace Sys2Proof.Machine

/-! ## Memories -/

/-- What a location holds; nothing if it was never written since power-on (70_reset_and_hazards.md R249,
log 8). -/
def Memory.read {α : Type} : Memory α → Nat → Option α
  | [], _ => none
  | (b, v) :: m, a => if a = b then some v else Memory.read m a

/-- Store `v` at `a`, keeping the addresses rising. -/
def Memory.write {α : Type} : Memory α → Nat → α → Memory α
  | [], a, v => [(a, v)]
  | (b, w) :: m, a, v =>
    if a < b then (a, v) :: (b, w) :: m
    else if a = b then (a, v) :: m
    else (b, w) :: Memory.write m a v

/-- The canonical form: strictly rising addresses. A location that holds no value is not listed, so no entry can equal
what an unlisted location reads as. -/
abbrev Memory.wf {α : Type} (m : Memory α) : Prop := m.Pairwise fun x y => x.1 < y.1

/-- Every listed location lies in a memory of `size` locations (20_memory.md R50). -/
abbrev Memory.within {α : Type} (size : Nat) (m : Memory α) : Prop := ∀ x ∈ m, x.1 < size

/-- `MemRead` in a memory of `size` locations (00_scope.md R13, 20_memory.md R58, 70_reset_and_hazards.md R249). The
engine reaches OutOfRange in no run (DEDUCED, log 16). -/
def Memory.readAt {α : Type} (size : Nat) (m : Memory α) (a : Nat) : Except Fault α :=
  if a < size then
    match m.read a with
    | some v => .ok v
    | none => .error .uninitialised
  else .error .outOfRange

/-- `MemWrite` in a memory of `size` locations (00_scope.md R13, 20_memory.md R58). -/
def Memory.writeAt {α : Type} (size : Nat) (m : Memory α) (a : Nat) (v : α) : Except Fault (Memory α) :=
  if a < size then .ok (m.write a v) else .error .outOfRange

/-! ## Registers -/

/-- The register at a REG byte offset (10_state.md R22); none outside 0x00..0x1C or off a multiple of 4 (R33). -/
def Reg.ofOffset (offset : Nat) : Option Reg :=
  if offset = 0x00 then some .cmd
  else if offset = 0x04 then some .status
  else if offset = 0x08 then some .width
  else if offset = 0x0C then some .height
  else if offset = 0x10 then some .msgLen
  else if offset = 0x14 then some .bitLen
  else if offset = 0x18 then some .reserved18
  else if offset = 0x1C then some .reserved1C
  else none

/-- The byte offset of a register (10_state.md R22). -/
def Reg.offset : Reg → Nat
  | .cmd => 0x00
  | .status => 0x04
  | .width => 0x08
  | .height => 0x0C
  | .msgLen => 0x10
  | .bitLen => 0x14
  | .reserved18 => 0x18
  | .reserved1C => 0x1C

/-- `RD REG.<r>`: CMD and the reserved offsets read 0 (43_host_interface.md R192, 10_state.md R23, R33). -/
def State.readReg (s : State) : Reg → Word
  | .cmd => 0
  | .status => s.status.word
  | .width => s.width
  | .height => s.height
  | .msgLen => s.msgLen
  | .bitLen => s.bitLen
  | .reserved18 => 0
  | .reserved1C => 0

/-! ## The command handshake and the two ways a command ends -/

/-- `P = W * H` of the pending command, exact (10_state.md R34, 30_encoding.md R91). -/
def Engine.pixelCount (e : Engine) : Nat := e.w.toNat * e.h.toNat

/-- Latch the operands, clear DONE, ERR and ERRCODE, set BUSY, set `pending` (43_host_interface.md R195). This is also
what clears an earlier error (60_exceptions.md R222). -/
def acceptCommand (c : Command) (s : State) : State :=
  { s with
    status := Status.started
    engine := { pending := some c, w := s.width, h := s.height, n := s.msgLen } }

/-- `raise E()`: error entry. STATUS and `pending`, and nothing else (60_exceptions.md R220). There is no return from it
(R222). -/
def raiseError (e : ErrorKind) (s : State) : State :=
  { s with status := Status.failed e, engine := { s.engine with pending := none } }

/-- `complete()`: BUSY 0, DONE 1, ERR 0, ERRCODE 0, nothing pending (41_encoder.md R140, 42_decoder.md R169). -/
def completeCommand (s : State) : State :=
  { s with status := Status.succeeded, engine := { s.engine with pending := none } }

/-- An operation that may fault, as the outcome of a transition. -/
def orFault : Except Fault State → Host.Outcome State Fault Refusal
  | .ok s => .next s
  | .error f => .fault f

end Sys2Proof.Machine
end

