-- ==== Sys2Proof/Machine/Framer.lean ====
section
/-! DEFINITION. BitFramer, the shared framing functions (40_framer.md). They read no state and write none (R110). -/

namespace Sys2Proof.Machine

/-- `BITLENGTH(payload)`, exact (40_framer.md R111). -/
def bitLength (payload : List Byte) : Nat := payload.length * byteBits

/-- `LENGTH_FITS(payload)` (40_framer.md R112). -/
def lengthFits (payload : List Byte) : Bool := bitLength payload ≤ maxBitLength

/-- `bits_msb_first(v, N)`: `[v[N-1], v[N-2], ..., v[0]]` (00_scope.md R11). -/
def bitsMsbFirst {N : Nat} (v : BitVec N) : List Bool := (List.range N).map fun k => v.getLsbD (N - 1 - k)

/-- `FRAME(payload)`: the 32-bit prefix, then the payload's bits, most-significant bit first (40_framer.md R113). -/
def frame (payload : List Byte) : List Bool :=
  bitsMsbFirst (BitVec.ofNat prefixBits (bitLength payload)) ++ payload.flatMap bitsMsbFirst

/-- `CHANNEL_FOR_BIT_INDEX(i)`: pixel `i`, the red channel (40_framer.md R115). -/
def channelForBitIndex (i : Nat) : Nat × Nat := (i, carrierChannel)

/-- `CARRIER(i) = 4*pixelIndex + channel`: the PIX byte whose bit 0 carries bit `i` (40_framer.md R116). -/
def carrier (i : Nat) : Nat := channels * (channelForBitIndex i).1 + (channelForBitIndex i).2

/-- `BYTES(text)`: the low byte of each code point (40_framer.md R118); ENCODE calls it only when every code point
is one byte. -/
def bytes (text : List Word) : List Byte := text.map fun c => c.setWidth 8

/-- `(old & 0xFE) | bit` (41_encoder.md R138). -/
def setLsb (old : Byte) (bit : Bool) : Byte := (old &&& 0xFE#8) ||| (BitVec.ofBool bit).setWidth 8

end Sys2Proof.Machine
end

