-- ==== Sys2Proof/Machine/Operands.lean ====
section
/-! DEFINITION. Operand assembly: the text ENCODE reads (30_encoding.md R91), and the header and payload DECODE
rebuilds (R92). -/

namespace Sys2Proof.Machine

/-- The values at locations `j .. j + k - 1`, read in that order (30_encoding.md R91). -/
def Memory.readRange {α : Type} (size : Nat) (m : Memory α) : Nat → Nat → Except Fault (List α)
  | _, 0 => .ok []
  | j, k + 1 =>
    match m.readAt size j with
    | .error f => .error f
    | .ok v =>
      match m.readRange size (j + 1) k with
      | .error f => .error f
      | .ok vs => .ok (v :: vs)

/-- The text of a pending ENCODE: MSG words `0 .. n - 1` (30_encoding.md R91, 41_encoder.md R135). -/
def State.readText (s : State) : Except Fault (List Word) := s.msg.readRange s.cfg.msgWords 0 s.engine.n.toNat

/-- Bit 0 of the red bytes of pixels `i .. i + k - 1`, read in that order (42_decoder.md R165, R168). -/
def readLsbs (size : Nat) (pix : Memory Byte) : Nat → Nat → Except Fault (List Bool)
  | _, 0 => .ok []
  | i, k + 1 =>
    match pix.readAt size (carrier i) with
    | .error f => .error f
    | .ok v =>
      match readLsbs size pix (i + 1) k with
      | .error f => .error f
      | .ok bs => .ok (v.getLsbD 0 :: bs)

/-- The number that bits spell, most-significant bit first: bit `k` of `N` weighs `2 ^ (N - 1 - k)`
(30_encoding.md R92). -/
def assembleMsb : List Bool → Nat
  | [] => 0
  | b :: bs => b.toNat <<< bs.length + assembleMsb bs

/-- The header `L`: the red LSBs of pixels 0 to 31 (42_decoder.md R165). -/
def readHeader (size : Nat) (pix : Memory Byte) : Except Fault Word :=
  match readLsbs size pix 0 prefixBits with
  | .error f => .error f
  | .ok bs => .ok (BitVec.ofNat 32 (assembleMsb bs))

/-- Payload bytes `j .. j + k - 1`: byte `j` is in the red LSBs of pixels `32 + 8*j .. 32 + 8*j + 7`
(42_decoder.md R168). -/
def readPayload (size : Nat) (pix : Memory Byte) : Nat → Nat → Except Fault (List Byte)
  | _, 0 => .ok []
  | j, k + 1 =>
    match readLsbs size pix (prefixBits + byteBits * j) byteBits with
    | .error f => .error f
    | .ok bs =>
      match readPayload size pix (j + 1) k with
      | .error f => .error f
      | .ok rest => .ok (BitVec.ofNat 8 (assembleMsb bs) :: rest)

end Sys2Proof.Machine
end

