-- ==== Sys2Proof/Machine/Decoder.lean ====
section
/-! DEFINITION. The meaning of DECODE: its CMD write (42_decoder.md R163, 43_host_interface.md R195) and its engine
transition (42_decoder.md R164 to R170). -/

namespace Sys2Proof.Machine

/-- The output: `zext_32(byte)` into MSG words `j`, `j + 1`, ... (42_decoder.md R169). -/
def writeCharacters (size : Nat) : Nat → List Byte → Memory Word → Except Fault (Memory Word)
  | _, [], msg => .ok msg
  | j, b :: bs, msg =>
    match msg.writeAt size j (b.setWidth 32) with
    | .error f => .error f
    | .ok msg' => writeCharacters size (j + 1) bs msg'

/-- The CMD write of DECODE: the host precondition, then the handshake (42_decoder.md R163,
43_host_interface.md R195). -/
def startDecode (s : State) : Host.Outcome State Fault Refusal :=
  if s.status.busy then .fault .busyWrite
  else if s.cfg.pixBytes < channels * (s.width.toNat * s.height.toNat) then .fault .geometryOutOfRange
  else .next (acceptCommand .decode s)

/-- The successful end of DECODE, for a header `L` that passed the checks: the payload is read and written to MSG,
MSG_LEN and BIT_LEN take its lengths (42_decoder.md R168, R169). -/
def extractPayload (L : Word) (s : State) : Host.Outcome State Fault Refusal :=
  match readPayload s.cfg.pixBytes s.pix 0 (L.toNat / byteBits) with
  | .error f => .fault f
  | .ok payload =>
    match writeCharacters s.cfg.msgWords 0 payload s.msg with
    | .error f => .fault f
    | .ok msg =>
      .next (completeCommand { s with msg := msg, msgLen := BitVec.ofNat 32 (L.toNat / byteBits), bitLen := L })

/-- The engine transition of DECODE: the three checks in order, each before any write, then the output
(42_decoder.md R170, 60_exceptions.md R217). The capacity sum is exact (42_decoder.md R167). -/
def engineDecode (s : State) : Host.Outcome State Fault Refusal :=
  if s.engine.pixelCount < prefixBits then .next (raiseError .truncatedHeader s)
  else
    match readHeader s.cfg.pixBytes s.pix with
    | .error f => .fault f
    | .ok L =>
      if L.toNat % byteBits ≠ 0 then .next (raiseError .malformedLength s)
      else if s.engine.pixelCount < prefixBits + L.toNat then .next (raiseError .capacityExceeded s)
      else extractPayload L s

/-- DECODE (42_decoder.md R160, R170): its two transitions, told apart by what is pending, as for ENCODE (log 1). -/
def execDecode (s : State) : Host.Outcome State Fault Refusal :=
  match s.engine.pending with
  | none => startDecode s
  | some .decode => engineDecode s
  | some .encode => .fault .busyWrite

end Sys2Proof.Machine
end

