-- ==== Sys2Proof/Machine/Encoder.lean ====
section
/-! DEFINITION. The meaning of ENCODE: its CMD write (41_encoder.md R133, 43_host_interface.md R195) and its engine
transition (41_encoder.md R134 to R141). -/

namespace Sys2Proof.Machine

/-- The write phase: bit 0 of the red byte of pixel `i`, `i + 1`, ... takes the given bits (41_encoder.md R138). -/
def writeLsbs (size : Nat) : Nat → List Bool → Memory Byte → Except Fault (Memory Byte)
  | _, [], pix => .ok pix
  | i, b :: bs, pix =>
    match pix.readAt size (carrier i) with
    | .error f => .error f
    | .ok old =>
      match pix.writeAt size (carrier i) (setLsb old b) with
      | .error f => .error f
      | .ok pix' => writeLsbs size (i + 1) bs pix'

/-- The CMD write of ENCODE: the host preconditions, then the handshake (41_encoder.md R133,
43_host_interface.md R195). -/
def startEncode (s : State) : Host.Outcome State Fault Refusal :=
  if s.status.busy then .fault .busyWrite
  else if s.cfg.pixBytes < channels * (s.width.toNat * s.height.toNat) then .fault .geometryOutOfRange
  else if s.cfg.msgWords < s.msgLen.toNat then .fault .messageOutOfRange
  else .next (acceptCommand .encode s)

/-- The successful end of ENCODE: the payload is framed and written, BIT_LEN takes its bit length
(41_encoder.md R138, R140). -/
def embedPayload (payload : List Byte) (s : State) : Host.Outcome State Fault Refusal :=
  match writeLsbs s.cfg.pixBytes 0 (frame payload) s.pix with
  | .error f => .fault f
  | .ok pix => .next (completeCommand { s with pix := pix, bitLen := BitVec.ofNat 32 (bitLength payload) })

/-- The engine transition of ENCODE: the four checks in order, each before any write, then the write phase
(41_encoder.md R139, 60_exceptions.md R216). -/
def engineEncode (s : State) : Host.Outcome State Fault Refusal :=
  if s.engine.n.toNat = 0 then .next (raiseError .emptyPayload s)
  else
    match s.readText with
    | .error f => .fault f
    | .ok text =>
      if text.any fun c => 0xFF < c.toNat then .next (raiseError .invalidCharacter s)
      else if !lengthFits (bytes text) then .next (raiseError .capacityExceeded s)
      else if s.engine.pixelCount < prefixBits + bitLength (bytes text) then .next (raiseError .capacityExceeded s)
      else embedPayload (bytes text) s

/-- ENCODE (41_encoder.md R130, R139): its two transitions, told apart by what is pending. With nothing pending it is
the CMD write; with ENCODE pending it is the engine's transition; with DECODE pending the engine is not ENCODE's. A
host's CMD write of ENCODE while a command is in progress never comes here: the write itself faults
(43_host_interface.md R195, hostCommand; log 1). -/
def execEncode (s : State) : Host.Outcome State Fault Refusal :=
  match s.engine.pending with
  | none => startEncode s
  | some .encode => engineEncode s
  | some .decode => .fault .busyWrite

end Sys2Proof.Machine
end

