-- ==== Sys2Proof/Machine/Nop.lean ====
section
/-! DEFINITION. The meaning of NOP (43_host_interface.md R191). -/

namespace Sys2Proof.Machine

/-- NOP: no effect, no flag written; BusyWrite if a command is in progress (43_host_interface.md R191). -/
def execNop (s : State) : Host.Outcome State Fault Refusal :=
  if s.status.busy then .fault .busyWrite else .next s

end Sys2Proof.Machine
end

