-- ==== Sys2Proof/Machine/Reset.lean ====
section
/-! DEFINITION. The reset input (70_reset_and_hazards.md R240 to R243). -/

namespace Sys2Proof.Machine

/-- The red bytes of pixels `0 .. k - 1` take free values, numbered from `d` (70_reset_and_hazards.md R243, log 9). -/
def freeRedBytes (d : Nat) : Nat → Memory Byte → Memory Byte
  | 0, pix => pix
  | k + 1, pix => (freeRedBytes d k pix).write (carrier k) (Config.freeByte (d + k))

/-- MSG words `0 .. k - 1` take free values, numbered from `d` (70_reset_and_hazards.md R243, log 9). -/
def freeWords (d : Nat) : Nat → Memory Word → Memory Word
  | 0, msg => msg
  | k + 1, msg => (freeWords d k msg).write k (Config.freeWord (d + k))

/-- How many red bytes an abandoned ENCODE leaves unspecified: those of pixels `0 .. 32 + 8*n - 1` that PIX has
(70_reset_and_hazards.md R243, log 9). -/
def Engine.encodeFootprint (c : Config) (e : Engine) : Nat :=
  min (prefixBits + byteBits * e.n.toNat) c.maxPixels

/-- How many MSG words an abandoned DECODE leaves unspecified: words `0 .. floor((P - 32) / 8) - 1` when `P >= 32`,
none otherwise, as far as MSG has them (70_reset_and_hazards.md R243, log 9). -/
def Engine.decodeFootprint (c : Config) (e : Engine) : Nat :=
  min ((e.pixelCount - prefixBits) / byteBits) c.msgWords

/-- What reset leaves of the command in progress (70_reset_and_hazards.md R243). -/
def abandonCommand (s : State) : State :=
  match s.engine.pending with
  | none => s
  | some .encode =>
    { s with
      pix := freeRedBytes s.draws (s.engine.encodeFootprint s.cfg) s.pix
      draws := s.draws + s.engine.encodeFootprint s.cfg }
  | some .decode =>
    { s with
      msg := freeWords s.draws (s.engine.decodeFootprint s.cfg) s.msg
      draws := s.draws + s.engine.decodeFootprint s.cfg }

/-- Every register takes its reset value and nothing is pending; PIX and MSG stay (10_state.md R40,
70_reset_and_hazards.md R240, R242). -/
def resetRegisters (s : State) : State :=
  { s with
    width := State.reset.width
    height := State.reset.height
    msgLen := State.reset.msgLen
    bitLen := State.reset.bitLen
    status := State.reset.status
    engine := State.reset.engine }

/-- The reset input: the command in progress is abandoned and every register is reset (70_reset_and_hazards.md R240).
Asserting and releasing it is one event (DEDUCED, log 10). -/
def resetInput (s : State) : State := resetRegisters (abandonCommand s)

end Sys2Proof.Machine
end

