-- ==== Sys2Proof/Machine/HostInterface.lean ====
section
/-! DEFINITION. The host's accesses (43_host_interface.md R191 to R200), and whose move it is: the outside world's or
the engine's (R196). -/

namespace Sys2Proof.Machine

/-- A read returns its value to the host and does nothing else (20_memory.md R57). -/
def returnToHost (v : Word) (s : State) : State := { s with readData := some v }

/-- `WR REG.CMD, w`: BusyWrite, then ReservedCommand, then the command (43_host_interface.md R195). -/
def hostCommand (w : Word) (s : State) : Host.Outcome State Fault Refusal :=
  if s.status.busy then .fault .busyWrite
  else
    match decode w with
    | .error _ => .fault .reservedCommand
    | .ok i => exec i s

/-- A write to WIDTH, HEIGHT or MSG_LEN: BusyWrite while BUSY = 1, else the value is stored, given here as the state it
would leave (43_host_interface.md R193). -/
def storeUnlessBusy (stored s : State) : Host.Outcome State Fault Refusal :=
  if s.status.busy then .fault .busyWrite else .next stored

/-- `WR REG.<r>, v` (43_host_interface.md R193 to R195). -/
def hostRegWrite (r : Reg) (v : Word) (s : State) : Host.Outcome State Fault Refusal :=
  match r with
  | .cmd => hostCommand v s
  | .width => storeUnlessBusy { s with width := v } s
  | .height => storeUnlessBusy { s with height := v } s
  | .msgLen => storeUnlessBusy { s with msgLen := v } s
  | .status => .next s
  | .bitLen => .next s
  | .reserved18 => .next s
  | .reserved1C => .next s

/-- `WRB PIX[a], v` (43_host_interface.md R197). -/
def hostPixWrite (a : Nat) (v : Byte) (s : State) : Except Fault State :=
  match s.pix.writeAt s.cfg.pixBytes a v with
  | .error f => .error f
  | .ok pix => .ok { s with pix := pix }

/-- `RDB PIX[a]` (43_host_interface.md R197). -/
def hostPixRead (a : Nat) (s : State) : Except Fault State :=
  match s.pix.readAt s.cfg.pixBytes a with
  | .error f => .error f
  | .ok v => .ok (returnToHost (v.setWidth 32) s)

/-- `WRW MSG[j], v` (43_host_interface.md R198). -/
def hostMsgWrite (j : Nat) (v : Word) (s : State) : Except Fault State :=
  match s.msg.writeAt s.cfg.msgWords j v with
  | .error f => .error f
  | .ok msg => .ok { s with msg := msg }

/-- `RDW MSG[j]` (43_host_interface.md R198). -/
def hostMsgRead (j : Nat) (s : State) : Except Fault State :=
  match s.msg.readAt s.cfg.msgWords j with
  | .error f => .error f
  | .ok v => .ok (returnToHost v s)

/-- A REG access: its width (20_memory.md R56), its offset (10_state.md R33), then the register. -/
def hostReg (offset width : Nat) (k : Reg → Host.Outcome State Fault Refusal) : Host.Outcome State Fault Refusal :=
  if width ≠ 32 then .fault .badWidth
  else
    match Reg.ofOffset offset with
    | none => .fault .outOfRange
    | some r => k r

/-- A PIX or MSG access: BusyAccess while BUSY = 1 (43_host_interface.md R199), its width (20_memory.md R56), then the
location. Which reason wins when two apply is a DESIGN CHOICE (log 11). -/
def hostMemory (native width : Nat) (s : State) (k : Except Fault State) : Host.Outcome State Fault Refusal :=
  if s.status.busy then .fault .busyAccess
  else if width ≠ native then .fault .badWidth
  else orFault k

/-- One host access (43_host_interface.md R190). -/
def hostAccess (a : Access) (s : State) : Host.Outcome State Fault Refusal :=
  match a with
  | .regWrite o w v => hostReg o w fun r => hostRegWrite r v s
  | .regRead o w => hostReg o w fun r => .next (returnToHost (s.readReg r) s)
  | .pixWrite p w v => hostMemory 8 w s (hostPixWrite p v s)
  | .pixRead p w => hostMemory 8 w s (hostPixRead p s)
  | .msgWrite j w v => hostMemory 32 w s (hostMsgWrite j v s)
  | .msgRead j w => hostMemory 32 w s (hostMsgRead j s)

/-- The next input is gone. -/
def State.withInputs (s : State) (is : List Input) : State := { s with inputs := is }

/-- One turn of POLL: a read of STATUS; with BUSY = 1 the loop goes on (30_encoding.md R96, 43_host_interface.md R200). -/
def pollOnce (rest : List Input) (s : State) : State :=
  returnToHost (s.readReg .status) (if s.status.busy then s else s.withInputs rest)

/-- The outside world's move: its next input, or nothing (60_exceptions.md R231; the stutter is DEDUCED, log 15). -/
def hostTurn (s : State) : Host.Outcome State Fault Refusal :=
  match s.inputs with
  | [] => .next s
  | .access a :: rest => hostAccess a (s.withInputs rest)
  | .poll :: rest => .next (pollOnce rest s)
  | .reset :: rest => .next (resetInput (s.withInputs rest))

/-- The command the engine performs. -/
def Command.instr : Command → Instr
  | .encode => .encode
  | .decode => .decode

/-- This turn is gone. -/
def State.withTurns (s : State) (ts : List Turn) : State := { s with turns := ts }

/-- One transition of the block and its host: with nothing pending the outside world moves; with a command pending,
`turns` says who moves, and the engine does when it is empty (43_host_interface.md R196, 70_reset_and_hazards.md R252,
log 3). A faulted block stays faulted (10_state.md R38). One block, one host (log 14). -/
def transition (s : State) : Host.Outcome State Fault Refusal :=
  match s.faulted with
  | some f => .fault f
  | none =>
    match s.engine.pending with
    | none => hostTurn s
    | some c =>
      match s.turns with
      | [] => exec c.instr s
      | .engine :: ts => exec c.instr (s.withTurns ts)
      | .host :: ts => hostTurn (s.withTurns ts)

/-- The CMD write that the host's next move is, for a command word. -/
def commandInput (w : Word) : Input := .access (.regWrite Reg.cmd.offset 32 w)

end Sys2Proof.Machine
end

