-- ==== Sys2Proof/Machine/Step.lean ====
section
/-! DEFINITION. One step of the machine, and the placing of a command word where the next step runs it. -/

namespace Sys2Proof.Machine

/-- One transition (43_host_interface.md R196, HostInterface.transition). -/
def step (s : State) : Host.Outcome State Fault Refusal := transition s

/-- The block fetches nothing (10_state.md R21): it runs the command word a host writes to CMD. So `s` with a CMD write
of the word (the bits above `nbits` 0) as the host's next move, and, while a command is pending, the next turn the
host's (log 4). -/
def State.withFetchWord (s : State) (nbits w : Nat) : State :=
  { s with
    inputs := commandInput (BitVec.ofNat 32 (w % 2 ^ nbits)) :: s.inputs
    turns := match s.engine.pending with
      | none => s.turns
      | some _ => .host :: s.turns }

end Sys2Proof.Machine
end

