-- ==== Sys2Proof/Safety.lean ====
section
/-! DEFINITION. What claims are stated over: the observation (00_scope.md R19), the end of a run (R19,
43_host_interface.md R201), the fault mark's setting (10_state.md R38), runs, and the invariant of the block. -/

namespace Sys2Proof.Machine

/-- What a claim observes after the last command completes (00_scope.md R19). -/
structure Observation where
  status : Word
  msgLen : Word
  bitLen : Word
  pix : Memory Byte
  msg : Memory Word
  faulted : Option Fault
deriving DecidableEq, Repr

/-- The host-visible state (00_scope.md R19). -/
def State.observe (s : State) : Observation :=
  { status := s.status.word, msgLen := s.msgLen, bitLen := s.bitLen, pix := s.pix, msg := s.msg, faulted := s.faulted }

/-- A run has ended: BUSY = 0, no further access, no fault (00_scope.md R19, 43_host_interface.md R201). -/
def State.ended (s : State) : Bool := !s.status.busy && s.inputs.isEmpty && s.faulted.isNone

/-- The state after one transition, the fault mark set where the transition faults: "sets it and records the reason"
(10_state.md R38, log 6). -/
def State.advance (s : State) : State :=
  match step s with
  | .next t => t
  | .fault f => { s with faulted := some f }
  | .refused _ => s

/-- `k` transitions, stopping at the first that does not answer a next state. -/
def State.run : Nat → State → Host.Outcome State Fault Refusal
  | 0, s => .next s
  | k + 1, s =>
    match step s with
    | .next t => State.run k t
    | .fault f => .fault f
    | .refused r => .refused r

/-- The STATUS values a host can see: idle with no result, busy, done, or one of the five errors (30_encoding.md R84). -/
def Status.legal (t : Status) : Prop :=
  t = Status.reset ∨ t = Status.started ∨ t = Status.succeeded ∨ ∃ e, t = Status.failed e

/-- The invariant of the block: what holds after reset and after every step. -/
structure State.Inv (s : State) : Prop where
  /-- The sizes conform (00_scope.md R6, R7). -/
  cfg_wf : s.cfg.wf
  /-- PIX has its canonical form. -/
  pix_wf : s.pix.wf
  /-- PIX holds nothing at or above PIX_BYTES (20_memory.md R50). -/
  pix_within : s.pix.within s.cfg.pixBytes
  /-- MSG has its canonical form. -/
  msg_wf : s.msg.wf
  /-- MSG holds nothing at or above MSG_WORDS (20_memory.md R50). -/
  msg_within : s.msg.within s.cfg.msgWords
  /-- STATUS is one of the eight words of 30_encoding.md R84. -/
  status_legal : s.status.legal
  /-- "`pending = none` exactly when STATUS.BUSY = 0" (10_state.md R37). -/
  pending_iff : s.engine.pending = none ↔ s.status.busy = false
  /-- While a command is pending, the registers still hold what was latched (10_state.md R37, 43_host_interface.md R199). -/
  latched : s.engine.pending ≠ none →
    s.engine.w = s.width ∧ s.engine.h = s.height ∧ s.engine.n = s.msgLen
  /-- The pending command's buffer fits in PIX (41_encoder.md R133, 42_decoder.md R163). -/
  geometry : s.engine.pending ≠ none → channels * s.engine.pixelCount ≤ s.cfg.pixBytes
  /-- A pending ENCODE's text fits in MSG (41_encoder.md R133). -/
  message : s.engine.pending = some .encode → s.engine.n.toNat ≤ s.cfg.msgWords

end Sys2Proof.Machine
end

