-- ==== Sys2Proof/Certificates/Slice0/Obligations.lean ====
section
/-! DEFINITION. The statements about the block. Each docstring names the rule of spec/ it formalises. Helper definitions
stand under Sys2Proof.Spec and are written from the rules, not from the model's own functions. -/

namespace Sys2Proof.Spec

open Sys2Proof.Machine

/-- The next transition is the outside world's, its input is `i`, and `s'` is `s` without that input and without the
turn it takes while a command is pending (20_memory.md R61, log 3, log 4). -/
def HostMove (s : State) (i : Input) (s' : State) : Prop :=
  s.faulted = none ∧ ∃ rest, s.inputs = i :: rest ∧
    ((s.engine.pending = none ∧ s' = { s with inputs := rest }) ∨
      (s.engine.pending ≠ none ∧ ∃ ts, s.turns = .host :: ts ∧ s' = { s with inputs := rest, turns := ts }))

/-- The next transition is the engine's, for the pending command `c`, and `s'` is `s` without the turn it takes
(43_host_interface.md R196, log 3). -/
def EngineMove (s : State) (c : Command) (s' : State) : Prop :=
  s.faulted = none ∧ s.engine.pending = some c ∧
    ((s.turns = [] ∧ s' = s) ∨ ∃ ts, s.turns = .engine :: ts ∧ s' = { s with turns := ts })

/-- ENCODE is pending and its host preconditions held at its CMD write (41_encoder.md R133). -/
def EncodePending (s : State) : Prop :=
  s.engine.pending = some .encode ∧ 4 * (s.engine.w.toNat * s.engine.h.toNat) ≤ s.cfg.pixBytes ∧
    s.engine.n.toNat ≤ s.cfg.msgWords

/-- DECODE is pending and its host precondition held at its CMD write (42_decoder.md R163). -/
def DecodePending (s : State) : Prop :=
  s.engine.pending = some .decode ∧ 4 * (s.engine.w.toNat * s.engine.h.toNat) ≤ s.cfg.pixBytes

/-- `P`, the pixel count of the pending command (10_state.md R34). -/
def pixels (s : State) : Nat := s.engine.w.toNat * s.engine.h.toNat

/-- MSG words `0 .. n - 1` hold `text`, `n` as latched (41_encoder.md R131). -/
def HoldsText (s : State) (text : List Word) : Prop :=
  text.length = s.engine.n.toNat ∧ ∀ j < text.length, s.msg.read j = text[j]?

/-- The red bytes of pixels `0 .. k - 1` were all written since power-on. -/
def RedWritten (pix : Memory Byte) (k : Nat) : Prop := ∀ i < k, ∃ v, pix.read (4 * i) = some v

/-- The state in which a command ends with ERRCODE `code` (60_exceptions.md R220). -/
def endedWith (code : BitVec 3) (s : State) : State :=
  { s with
    status := { busy := false, done := false, err := true, errcode := code }
    engine := { s.engine with pending := none } }

/-- STATUS and the engine at a successful completion: the STATUS word 0x00000002, nothing pending (41_encoder.md R140). -/
def endedWell (s : State) : State :=
  { s with
    status := { busy := false, done := true, err := false, errcode := 0 }
    engine := { s.engine with pending := none } }

/-- STATUS and the engine at an accepted CMD write (43_host_interface.md R195). -/
def started (c : Command) (s : State) : State :=
  { s with
    status := { busy := true, done := false, err := false, errcode := 0 }
    engine := { pending := some c, w := s.width, h := s.height, n := s.msgLen } }

/-- Bit `i` of the BitStream of a text whose characters are single bytes (30_encoding.md R89): the prefix holds `8*n`,
most-significant bit first; then byte `j`, most-significant bit first. -/
def streamBit (text : List Word) (i : Nat) : Bool :=
  if i < 32 then (8 * text.length).testBit (31 - i)
  else (text[(i - 32) / 8]?.getD 0).getLsbD (7 - (i - 32) % 8)

/-- Bit 0 of the red byte of pixel `i` (30_encoding.md R90). -/
def redBit (pix : Memory Byte) (i : Nat) : Bool := ((pix.read (4 * i)).getD 0).getLsbD 0

/-- `L` as the header spells it (30_encoding.md R92). -/
def headerSum (pix : Memory Byte) : Nat := ∑ k ∈ Finset.range 32, (redBit pix k).toNat <<< (31 - k)

/-- `byte_j` as the pixels spell it (30_encoding.md R92). -/
def byteSum (pix : Memory Byte) (j : Nat) : Nat :=
  ∑ m ∈ Finset.range 8, (redBit pix (32 + 8 * j + m)).toNat <<< (7 - m)

/-- How many red bytes a DECODE reads, from pixel 0 on (20_memory.md R68, 42_decoder.md R171). -/
def decodeReads (s : State) : Nat :=
  if pixels s < 32 then 0
  else if headerSum s.pix % 8 = 0 ∧ 32 + headerSum s.pix ≤ pixels s then 32 + headerSum s.pix
  else 32

end Sys2Proof.Spec

open Sys2Proof Sys2Proof.Machine Sys2Proof.Spec

/-! ## The opcode map -/

/-- 30_encoding.md R82, R83, on words written out: the three commands, OP = 11, and words with RSVD bits set
(95_test_vectors.md V-H7, V-H8). -/
def Obligations.CommandWordsDecodeAsTheOpcodeMapSays : Prop :=
  decode 0b00000000000000000000000000000000#32 = .ok .nop ∧
  decode 0b00000000000000000000000000000001#32 = .ok .encode ∧
  decode 0b00000000000000000000000000000010#32 = .ok .decode ∧
  decode 0b00000000000000000000000000000011#32 = .error .reservedOp ∧
  decode 0b00000000000000000000000100000001#32 = .error .reservedBits ∧
  decode 0b10000000000000000000000000000010#32 = .error .reservedBits

/-- 30_encoding.md R82: each command's word, and that the decoder reads a command from a word exactly when the word is
the command's own. Decode and encode agree both ways. -/
def Obligations.DecodeAcceptsExactlyTheEncodedCommands : Prop :=
  encode .nop = 0x00000000#32 ∧ encode .encode = 0x00000001#32 ∧ encode .decode = 0x00000002#32 ∧
  ∀ (w : Word) (i : Instr), decode w = .ok i ↔ w = encode i

/-- 30_encoding.md R83 and the reserved row of R82: a host that writes a word that is none of the three commands' faults
with ReservedCommand, whatever OP is. -/
def Obligations.ReservedCommandWordFaults : Prop :=
  ∀ (s s' : State) (w : Word), HostMove s (commandInput w) s' → s.status.busy = false →
    (w.extractLsb' 2 30 ≠ 0 ∨ w.extractLsb' 0 2 = 3) → step s = .fault .reservedCommand

/-! ## Reset, idling, moves -/

/-- 10_state.md R40: after power-on reset every register reads 0, nothing is pending, no fault is marked, and no
location of PIX or MSG holds a value. -/
def Obligations.ResetLeavesTheStatedValues : Prop :=
  (∀ r, State.reset.readReg r = 0) ∧ State.reset.status.word = 0x00000000#32 ∧ State.reset.engine.pending = none ∧
  State.reset.faulted = none ∧ (∀ a, State.reset.pix.read a = none) ∧ (∀ j, State.reset.msg.read j = none)

/-- The invariant of the block holds after reset (with the sizes of log 2, the model's choice). -/
def Obligations.ResetMeetsTheBlockInvariant : Prop := State.reset.Inv

/-- The invariant of the block is kept by every transition, of the host and of the engine: canonical memories inside their
sizes, a STATUS word of R84, BUSY exactly while a command is pending, operands latched and in range. -/
def Obligations.EveryStepKeepsTheBlockInvariant : Prop :=
  ∀ s t : State, s.Inv → step s = .next t → t.Inv

/-- PIX_BYTES and MSG_WORDS are parameters: no transition changes them (00_scope.md R6). -/
def Obligations.NoStepChangesTheSizes : Prop := ∀ s t : State, step s = .next t → t.cfg = s.cfg

/-- An idle block (BUSY = 0) to which nothing happens keeps every piece of state (60_exceptions.md R231). That the model
takes a step there, which changes nothing, is its own choice (log 15). -/
def Obligations.IdleBlockKeepsItsState : Prop :=
  ∀ s : State, s.faulted = none → (s.engine.pending = none ↔ s.status.busy = false) → s.status.busy = false →
    s.inputs = [] → step s = .next s

/-- A step runs the decoded command: the host's CMD write, when no command is in progress, is exec of the command that its
word decodes to; the engine's transition is exec of the pending command; any other host access is that access; and a
word placed by withFetchWord is what the next step of an idle block runs. -/
def Obligations.StepRunsTheDecodedCommand : Prop :=
  (∀ (s s' : State) (w : Word) (i : Instr), HostMove s (commandInput w) s' → s.status.busy = false →
    decode w = .ok i → step s = exec i s') ∧
  (∀ (s s' : State) (c : Command), EngineMove s c s' → step s = exec c.instr s') ∧
  (∀ (s s' : State) (a : Access), HostMove s (.access a) s' → step s = hostAccess a s') ∧
  (∀ (s : State) (w : Word) (i : Instr), s.faulted = none → s.engine.pending = none → s.status.busy = false →
    decode w = .ok i → step (s.withFetchWord 32 w.toNat) = exec i s)

/-- Every command, access and input has a meaning: no transition is refused. -/
def Obligations.NoTransitionIsRefused : Prop := ∀ (s : State) (r : Refusal), step s ≠ .refused r

/-- The fault mark is permanent and records its reason (10_state.md R38; the mark's form is log 6). -/
def Obligations.FaultMarkIsPermanent : Prop :=
  (∀ (s : State) (f : Fault), s.faulted = some f → step s = .fault f ∧ s.advance = s) ∧
  (∀ (s : State) (f : Fault), step s = .fault f → s.advance.faulted = some f) ∧
  (∀ s t : State, step s = .next t → s.faulted = none ∧ t.faulted = none)

/-- A pending command ends within finitely many transitions, whatever the host does meanwhile: at most one more than the
turns still listed; the run may fault before (43_host_interface.md R196, 70_reset_and_hazards.md R252; the form of
LATENCY is log 3). -/
def Obligations.PendingCommandEndsWithinItsTurns : Prop :=
  ∀ s : State, s.Inv → s.faulted = none → s.engine.pending ≠ none →
    ∃ k ≤ s.turns.length + 1, (∃ f, State.run k s = .fault f) ∨
      ∃ t, State.run k s = .next t ∧ t.engine.pending = none

/-! ## NOP -/

/-- 43_host_interface.md R191: NOP is the CMD word 0; it has no effect and writes no flag; while BUSY = 1 it faults with
BusyWrite. -/
def Obligations.NopHasNoEffect : Prop :=
  encode .nop = 0#32 ∧
  (∀ s : State, s.status.busy = false → exec .nop s = .next s) ∧
  (∀ s : State, s.status.busy = true → exec .nop s = .fault .busyWrite)

/-! ## The CMD write -/

/-- 43_host_interface.md R195: everything a host's write of a word to CMD does. -/
def Obligations.CommandWriteIsTheHandshake : Prop :=
  ∀ (s s' : State) (w : Word), HostMove s (commandInput w) s' →
    (s.engine.pending = none ↔ s.status.busy = false) →
    step s =
      if s.status.busy then .fault .busyWrite
      else if w.extractLsb' 2 30 ≠ 0 ∨ w.extractLsb' 0 2 = 3 then .fault .reservedCommand
      else if w = 0x00000000#32 then .next s'
      else if s.cfg.pixBytes < 4 * (s.width.toNat * s.height.toNat) then .fault .geometryOutOfRange
      else if w = 0x00000001#32 then
        if s.cfg.msgWords < s.msgLen.toNat then .fault .messageOutOfRange else .next (started .encode s')
      else .next (started .decode s')

/-- The CMD write of ENCODE completes for every idle state whose preconditions hold (41_encoder.md R133): W, H and n are
latched, BUSY is set, the earlier outcome is cleared, nothing else changes. -/
def Obligations.EncodeIsAccepted : Prop :=
  ∀ s : State, s.engine.pending = none → s.status.busy = false →
    4 * (s.width.toNat * s.height.toNat) ≤ s.cfg.pixBytes → s.msgLen.toNat ≤ s.cfg.msgWords →
    exec .encode s = .next (started .encode s)

/-- The CMD write of DECODE completes for every idle state whose precondition holds (42_decoder.md R163), whatever MSG_LEN
is. -/
def Obligations.DecodeIsAccepted : Prop :=
  ∀ s : State, s.engine.pending = none → s.status.busy = false →
    4 * (s.width.toNat * s.height.toNat) ≤ s.cfg.pixBytes → exec .decode s = .next (started .decode s)

/-- 41_encoder.md R133 and 42_decoder.md R163: the host preconditions, checked at the CMD write before any check of the
command. -/
def Obligations.BrokenPreconditionsFaultAtTheCommandWrite : Prop :=
  ∀ s : State, s.engine.pending = none → s.status.busy = false →
    (s.cfg.pixBytes < 4 * (s.width.toNat * s.height.toNat) →
      exec .encode s = .fault .geometryOutOfRange ∧ exec .decode s = .fault .geometryOutOfRange) ∧
    (4 * (s.width.toNat * s.height.toNat) ≤ s.cfg.pixBytes → s.cfg.msgWords < s.msgLen.toNat →
      exec .encode s = .fault .messageOutOfRange)

/-! ## ENCODE -/

/-- 41_encoder.md R138, R140: a successful ENCODE. Bit `i` of the BitStream goes to bit 0 of the red byte of pixel
`i`, the other seven bits and every other byte of PIX stay, BIT_LEN takes `8*n`, STATUS becomes 0x00000002, and
nothing else changes (MSG_LEN keeps `n`). -/
def Obligations.EncodeEmbedsTheText : Prop :=
  ∀ (s : State) (text : List Word), EncodePending s → HoldsText s text → 0 < text.length →
    (∀ c ∈ text, c.toNat ≤ 0xFF) → 8 * text.length ≤ 2 ^ 32 - 1 → 32 + 8 * text.length ≤ pixels s →
    RedWritten s.pix (32 + 8 * text.length) →
    ∃ pix', exec .encode s =
        .next { endedWell s with pix := pix', bitLen := BitVec.ofNat 32 (8 * text.length) } ∧
      (∀ i < 32 + 8 * text.length, ∀ old, s.pix.read (4 * i) = some old →
        pix'.read (4 * i) = some ((old &&& 0xFE) ||| (if streamBit text i then 1 else 0))) ∧
      (∀ a, (∀ i < 32 + 8 * text.length, a ≠ 4 * i) → pix'.read a = s.pix.read a)

/-- 41_encoder.md R134: ENCODE with no text, for every PIX and MSG, written or not. -/
def Obligations.EncodeOfEmptyTextIsEmptyPayload : Prop :=
  ∀ s : State, EncodePending s → s.engine.n = 0 → exec .encode s = .next (endedWith 1 s)

/-- 41_encoder.md R135: a code point above 0xFF, for every PIX, written or not; all `n` words are read, and one that was
never written faults. -/
def Obligations.EncodeOfInvalidCharacterIsRefused : Prop :=
  ∀ s : State, EncodePending s → s.engine.n ≠ 0 →
    (∀ text, HoldsText s text → (∃ c ∈ text, 0xFF < c.toNat) → exec .encode s = .next (endedWith 2 s)) ∧
    ((∃ j < s.engine.n.toNat, s.msg.read j = none) → exec .encode s = .fault .uninitialised)

/-- 41_encoder.md R136, R137: a text whose bit length exceeds 2^32 - 1, or whose frame exceeds the pixel count, for every
PIX, written or not. -/
def Obligations.EncodeBeyondCapacityIsRefused : Prop :=
  ∀ (s : State) (text : List Word), EncodePending s → HoldsText s text → 0 < text.length →
    (∀ c ∈ text, c.toNat ≤ 0xFF) → (2 ^ 32 - 1 < 8 * text.length ∨ pixels s < 32 + 8 * text.length) →
    exec .encode s = .next (endedWith 3 s)

/-- An ENCODE that passed its checks and meets a red byte nothing has written faults (70_reset_and_hazards.md R249). -/
def Obligations.EncodeOverUnwrittenPixelFaults : Prop :=
  ∀ (s : State) (text : List Word), EncodePending s → HoldsText s text → 0 < text.length →
    (∀ c ∈ text, c.toNat ≤ 0xFF) → 8 * text.length ≤ 2 ^ 32 - 1 → 32 + 8 * text.length ≤ pixels s →
    (∃ i < 32 + 8 * text.length, s.pix.read (4 * i) = none) → exec .encode s = .fault .uninitialised

/-- Non-interference, which the spec derives (41_encoder.md R142). Whatever an ENCODE ends with, every PIX byte is
unchanged except possibly bit 0 of the bytes `4*i` with `i < 32 + 8*n`. -/
def Obligations.EncodeTouchesOnlyRedLsbsOfItsFrame : Prop :=
  ∀ s t : State, s.engine.pending = some .encode → exec .encode s = .next t →
    ∀ a, t.pix.read a = s.pix.read a ∨
      ∃ i < 32 + 8 * s.engine.n.toNat, a = 4 * i ∧
        ∃ old new, s.pix.read a = some old ∧ t.pix.read a = some new ∧ new >>> 1 = old >>> 1

/-- Determinism and idempotence, which the spec derives (41_encoder.md R143). The result of ENCODE depends only on W,
H, n, MSG words `0 .. n - 1` and PIX bytes `4*i` with `i < 32 + 8*n`; and ENCODE applied twice with the same text
leaves the same state as applied once. -/
def Obligations.EncodeIsDeterminedByItsFootprintAndIdempotent : Prop :=
  (∀ s₁ s₂ t₁ : State, s₁.engine.pending = some .encode → s₂.engine = s₁.engine → s₂.cfg = s₁.cfg →
    (∀ j < s₁.engine.n.toNat, s₂.msg.read j = s₁.msg.read j) →
    (∀ i < 32 + 8 * s₁.engine.n.toNat, s₂.pix.read (4 * i) = s₁.pix.read (4 * i)) →
    exec .encode s₁ = .next t₁ →
    ∃ t₂, exec .encode s₂ = .next t₂ ∧ t₂.status = t₁.status ∧ (t₁.status.done = true → t₂.bitLen = t₁.bitLen) ∧
      ∀ i < 32 + 8 * s₁.engine.n.toNat, t₂.pix.read (4 * i) = t₁.pix.read (4 * i)) ∧
  (∀ s t : State, s.Inv → s.engine.pending = some .encode → exec .encode s = .next t → t.status.done = true →
    exec .encode { t with status := s.status, engine := s.engine } = .next t)

/-! ## DECODE -/

/-- 42_decoder.md R165, R168, R169: a successful DECODE. MSG words `0 .. L/8 - 1` take the bytes the red LSBs spell,
zero-extended, every other MSG word stays, MSG_LEN takes `L/8`, BIT_LEN takes `L`, STATUS becomes 0x00000002, and nothing
else changes; the output fits in MSG for every conforming implementation. -/
def Obligations.DecodeExtractsTheText : Prop :=
  ∀ s : State, DecodePending s → s.cfg.wf → 32 ≤ pixels s → headerSum s.pix % 8 = 0 →
    32 + headerSum s.pix ≤ pixels s → RedWritten s.pix (32 + headerSum s.pix) →
    ∃ msg', exec .decode s =
        .next { endedWell s with
          msg := msg', msgLen := BitVec.ofNat 32 (headerSum s.pix / 8), bitLen := BitVec.ofNat 32 (headerSum s.pix) } ∧
      (∀ j < headerSum s.pix / 8, j < s.cfg.msgWords ∧
        msg'.read j = some ((BitVec.ofNat 8 (byteSum s.pix j)).setWidth 32)) ∧
      (∀ j, headerSum s.pix / 8 ≤ j → msg'.read j = s.msg.read j)

/-- 42_decoder.md R164: an image of fewer than 32 pixels, for every PIX, written or not. -/
def Obligations.DecodeOfTooFewPixelsIsTruncatedHeader : Prop :=
  ∀ s : State, DecodePending s → pixels s < 32 → exec .decode s = .next (endedWith 4 s)

/-- 42_decoder.md R166: a header that is not a multiple of 8, whatever the capacity. -/
def Obligations.DecodeOfUnalignedHeaderIsMalformedLength : Prop :=
  ∀ s : State, DecodePending s → 32 ≤ pixels s → RedWritten s.pix 32 → headerSum s.pix % 8 ≠ 0 →
    exec .decode s = .next (endedWith 5 s)

/-- 42_decoder.md R167: a header that asks for more pixels than there are, compared exactly: the sum may need 33 bits. -/
def Obligations.DecodeBeyondCapacityIsRefused : Prop :=
  ∀ s : State, DecodePending s → 32 ≤ pixels s → RedWritten s.pix 32 → headerSum s.pix % 8 = 0 →
    pixels s < 32 + headerSum s.pix → exec .decode s = .next (endedWith 3 s)

/-- A DECODE that reads a red byte nothing has written faults (70_reset_and_hazards.md R249). -/
def Obligations.DecodeOfUnwrittenPixelFaults : Prop :=
  ∀ s : State, DecodePending s → 32 ≤ pixels s →
    ((∃ i < 32, s.pix.read (4 * i) = none) → exec .decode s = .fault .uninitialised) ∧
    (RedWritten s.pix 32 → headerSum s.pix % 8 = 0 → 32 + headerSum s.pix ≤ pixels s →
      (∃ i < 32 + headerSum s.pix, s.pix.read (4 * i) = none) → exec .decode s = .fault .uninitialised)

/-- 42_decoder.md R173: a header of 0 in an image of 32 or more pixels decodes to the empty text, with no MSG word
written, an image of zero red bytes among them; and ENCODE never leaves a bit length of 0. -/
def Obligations.ZeroHeaderDecodesToTheEmptyText : Prop :=
  (∀ s : State, DecodePending s → 32 ≤ pixels s → RedWritten s.pix 32 → (∀ i < 32, redBit s.pix i = false) →
    exec .decode s = .next { endedWell s with msgLen := 0, bitLen := 0 }) ∧
  (∀ s t : State, s.engine.pending = some .encode → exec .encode s = .next t → t.status.done = true → t.bitLen ≠ 0)

/-- What the spec derives in 42_decoder.md R171: DECODE never writes PIX, and what it answers depends on no more of
PIX than the red bytes it reads (nor on MSG, MSG_LEN or the latched n). Decoding the same buffer twice gives the same
result. -/
def Obligations.DecodeReadsOnlyItsRedBytes : Prop :=
  ∀ s₁ s₂ : State, s₁.engine.pending = some .decode → s₂.engine.pending = some .decode →
    s₂.engine.w = s₁.engine.w → s₂.engine.h = s₁.engine.h → s₂.cfg = s₁.cfg →
    (∀ i < decodeReads s₁, s₂.pix.read (4 * i) = s₁.pix.read (4 * i)) →
    (∀ f, exec .decode s₁ = .fault f → exec .decode s₂ = .fault f) ∧
    (∀ t₁, exec .decode s₁ = .next t₁ → t₁.pix = s₁.pix ∧
      ∃ t₂, exec .decode s₂ = .next t₂ ∧ t₂.pix = s₂.pix ∧ t₂.status = t₁.status ∧
        (t₁.status.done = true → t₂.bitLen = t₁.bitLen ∧ t₂.msgLen = t₁.msgLen ∧
          ∀ j < t₁.msgLen.toNat, t₂.msg.read j = t₁.msg.read j))

/-! ## Both commands -/

/-- The round trip, which the spec derives (42_decoder.md R172). From any state that meets the block's invariant, with
an image whose red bytes were written and a text that fits, ENCODE and then DECODE both complete, and MSG holds the
text again, with MSG_LEN = n, BIT_LEN = 8*n and STATUS = 0x00000002; and they do so even when the text in MSG was
overwritten between them. -/
def Obligations.DecodeAfterEncodeGivesTheTextBack : Prop :=
  ∀ (s : State) (text : List Word) (scrub : Memory Word), s.Inv → s.engine.pending = none →
    4 * (s.width.toNat * s.height.toNat) ≤ s.cfg.pixBytes → s.msgLen.toNat ≤ s.cfg.msgWords →
    text.length = s.msgLen.toNat → (∀ j < text.length, s.msg.read j = text[j]?) → 0 < text.length →
    (∀ c ∈ text, c.toNat ≤ 0xFF) → 32 + 8 * text.length ≤ s.width.toNat * s.height.toNat →
    8 * text.length ≤ 2 ^ 32 - 1 → RedWritten s.pix (32 + 8 * text.length) →
    ∃ s₁ s₂ s₃ s₄ : State,
      exec .encode s = .next s₁ ∧ exec .encode s₁ = .next s₂ ∧ s₂.status.word = 0x00000002#32 ∧
      exec .decode { s₂ with msg := scrub } = .next s₃ ∧ exec .decode s₃ = .next s₄ ∧
      (∀ j < text.length, s₄.msg.read j = text[j]?) ∧ s₄.msgLen.toNat = text.length ∧
      s₄.bitLen.toNat = 8 * text.length ∧ s₄.status.word = 0x00000002#32

/-- Channel isolation, which the spec derives (40_framer.md R117). A command's outcome does not depend on the green,
blue and alpha bytes, and it leaves every one of them as it was. -/
def Obligations.CommandsIgnoreGreenBlueAndAlpha : Prop :=
  ∀ (s : State) (c : Command) (pix : Memory Byte), s.engine.pending = some c →
    (∀ a, a % 4 = 0 → pix.read a = s.pix.read a) →
    (∀ f, exec c.instr s = .fault f → exec c.instr { s with pix := pix } = .fault f) ∧
    (∀ t, exec c.instr s = .next t → (∀ a, a % 4 ≠ 0 → t.pix.read a = s.pix.read a) ∧
      ∃ pix', exec c.instr { s with pix := pix } = .next { t with pix := pix' } ∧
        (∀ a, a % 4 = 0 → pix'.read a = t.pix.read a) ∧ (∀ a, a % 4 ≠ 0 → pix'.read a = pix.read a))

/-- 60_exceptions.md R220 and 41_encoder.md R141: a command that ends with an error writes BUSY, DONE, ERR, ERRCODE and
`pending`, and nothing else; ERRCODE takes the code that the table of R210 gives the error. -/
def Obligations.FailedCommandWritesOnlyStatus : Prop :=
  (ErrorKind.emptyPayload.code = 1 ∧ ErrorKind.invalidCharacter.code = 2 ∧ ErrorKind.capacityExceeded.code = 3 ∧
    ErrorKind.truncatedHeader.code = 4 ∧ ErrorKind.malformedLength.code = 5) ∧
  ∀ (s t : State) (c : Command), s.engine.pending = some c → exec c.instr s = .next t → t.status.err = true →
    ∃ e : ErrorKind, t = endedWith e.code s

/-- 30_encoding.md R85: the code of each error kind, that a successful command leaves 0, which command raises which, and
that 6 and 7 are never produced. -/
def Obligations.EachCommandRaisesItsOwnErrorCodes : Prop :=
  (ErrorKind.emptyPayload.code = 1 ∧ ErrorKind.invalidCharacter.code = 2 ∧ ErrorKind.capacityExceeded.code = 3 ∧
    ErrorKind.truncatedHeader.code = 4 ∧ ErrorKind.malformedLength.code = 5) ∧
  (∀ s t : State, s.engine.pending = some .encode → exec .encode s = .next t →
    (t.status.err = false ∧ t.status.errcode = 0) ∨
      (t.status.err = true ∧ (t.status.errcode = 1 ∨ t.status.errcode = 2 ∨ t.status.errcode = 3))) ∧
  (∀ s t : State, s.engine.pending = some .decode → exec .decode s = .next t →
    (t.status.err = false ∧ t.status.errcode = 0) ∨
      (t.status.err = true ∧ (t.status.errcode = 3 ∨ t.status.errcode = 4 ∨ t.status.errcode = 5)))

/-- The engine's transition ends the command: BUSY falls, nothing is pending, and exactly one of DONE and ERR is set
(43_host_interface.md R196); and the registers WIDTH and HEIGHT, the host's inputs and the sizes stay. -/
def Obligations.EngineTransitionEndsTheCommand : Prop :=
  ∀ (s t : State) (c : Command), s.engine.pending = some c → exec c.instr s = .next t →
    t.engine = { s.engine with pending := none } ∧ t.status.busy = false ∧ t.status.err = !t.status.done ∧
      t.width = s.width ∧ t.height = s.height ∧ t.cfg = s.cfg ∧ t.inputs = s.inputs ∧ t.turns = s.turns ∧
      t.readData = s.readData ∧ t.faulted = s.faulted ∧ t.draws = s.draws

/-- Of a block that meets its invariant, the engine's transition faults only on a location nothing has written: every
other violation was refused at the CMD write (60_exceptions.md R218, 70_reset_and_hazards.md R249). -/
def Obligations.EngineFaultsOnlyOnUnwrittenLocations : Prop :=
  ∀ (s : State) (c : Command) (f : Fault), s.Inv → s.engine.pending = some c → exec c.instr s = .fault f →
    f = .uninitialised

/-- 60_exceptions.md R222: ERR and ERRCODE stay set until an accepted ENCODE or DECODE CMD write, or reset. No other
transition changes them: no NOP, no read, no write of STATUS. -/
def Obligations.ErrorStaysUntilTheNextCommandOrReset : Prop :=
  ∀ s t : State, s.Inv → s.status.err = true → step s = .next t →
    t.status = s.status ∨
    (t.status.err = false ∧ t.status.errcode = 0 ∧
      ((∃ s' w, HostMove s (commandInput w) s' ∧ (w = encode .encode ∨ w = encode .decode) ∧
          t.status.busy = true) ∨
        (∃ s', HostMove s .reset s' ∧ t.status.word = 0x00000000#32)))

/-! ## STATUS -/

/-- 30_encoding.md R84: the format of STATUS, and that the eight words listed are the only ones a host can read. -/
def Obligations.StatusReadsAsOneOfTheListedWords : Prop :=
  (∀ t : Status, t.word.getLsbD 0 = t.busy ∧ t.word.getLsbD 1 = t.done ∧ t.word.getLsbD 2 = t.err ∧
    t.word.getLsbD 3 = false ∧ t.word.extractLsb' 4 3 = t.errcode ∧ t.word.extractLsb' 7 25 = 0) ∧
  (∀ s : State, s.Inv → s.readReg .status ∈
    [0x00000000#32, 0x00000001#32, 0x00000002#32, 0x00000014#32, 0x00000024#32, 0x00000034#32, 0x00000044#32,
      0x00000054#32]) ∧
  (Status.reset.word = 0x00000000#32 ∧ Status.started.word = 0x00000001#32 ∧ Status.succeeded.word = 0x00000002#32 ∧
    (Status.failed .emptyPayload).word = 0x00000014#32 ∧ (Status.failed .invalidCharacter).word = 0x00000024#32 ∧
    (Status.failed .capacityExceeded).word = 0x00000034#32 ∧ (Status.failed .truncatedHeader).word = 0x00000044#32 ∧
    (Status.failed .malformedLength).word = 0x00000054#32)

/-- 10_state.md R24: at most one of BUSY, DONE and ERR is 1, and ERRCODE is not 0 exactly when ERR = 1, and at most 5. -/
def Obligations.StatusFlagsExcludeEachOther : Prop :=
  ∀ s : State, s.Inv →
    ¬ (s.status.busy = true ∧ s.status.done = true) ∧ ¬ (s.status.busy = true ∧ s.status.err = true) ∧
    ¬ (s.status.done = true ∧ s.status.err = true) ∧ (s.status.errcode ≠ 0 ↔ s.status.err = true) ∧
    s.status.errcode.toNat ≤ 5

/-! ## The host's accesses -/

/-- 43_host_interface.md R192: every REG read, while BUSY = 1 or not, returns the register's value and changes nothing
else. -/
def Obligations.RegisterReadsReturnTheRegister : Prop :=
  ∀ (s s' : State) (o : Nat), HostMove s (.access (.regRead o 32)) s' →
    (o = 0x00 → step s = .next { s' with readData := some 0 }) ∧
    (o = 0x04 → step s = .next { s' with readData := some s.status.word }) ∧
    (o = 0x08 → step s = .next { s' with readData := some s.width }) ∧
    (o = 0x0C → step s = .next { s' with readData := some s.height }) ∧
    (o = 0x10 → step s = .next { s' with readData := some s.msgLen }) ∧
    (o = 0x14 → step s = .next { s' with readData := some s.bitLen }) ∧
    (o = 0x18 ∨ o = 0x1C → step s = .next { s' with readData := some 0 })

/-- 43_host_interface.md R193: a write to WIDTH, HEIGHT or MSG_LEN stores all 32 bits and writes no flag; while BUSY =
1 it faults with BusyWrite. -/
def Obligations.OperandRegisterWritesStoreTheValue : Prop :=
  ∀ (s s' : State) (o : Nat) (v : Word), HostMove s (.access (.regWrite o 32 v)) s' →
    (s.status.busy = false →
      (o = 0x08 → step s = .next { s' with width := v }) ∧
      (o = 0x0C → step s = .next { s' with height := v }) ∧
      (o = 0x10 → step s = .next { s' with msgLen := v })) ∧
    (s.status.busy = true → (o = 0x08 ∨ o = 0x0C ∨ o = 0x10) → step s = .fault .busyWrite)

/-- 43_host_interface.md R194: writes to STATUS, BIT_LEN, 0x18 and 0x1C change no state, whether or not BUSY = 1. -/
def Obligations.WritesToReadOnlyRegistersAreIgnored : Prop :=
  ∀ (s s' : State) (o : Nat) (v : Word), HostMove s (.access (.regWrite o 32 v)) s' →
    (o = 0x04 ∨ o = 0x14 ∨ o = 0x18 ∨ o = 0x1C) → step s = .next s'

/-- 43_host_interface.md R197: every access to PIX by the host, of 8 bits: BusyAccess while BUSY = 1, OutOfRange at or
above PIX_BYTES; a write stores the byte there and nowhere else; a read returns it, or faults if nothing was written.
-/
def Obligations.PixAccessesReadAndWriteOneByte : Prop :=
  (∀ (s s' : State) (a : Nat) (v : Byte), HostMove s (.access (.pixWrite a 8 v)) s' →
    (s.status.busy = true → step s = .fault .busyAccess) ∧
    (s.status.busy = false → s.cfg.pixBytes ≤ a → step s = .fault .outOfRange) ∧
    (s.status.busy = false → a < s.cfg.pixBytes →
      ∃ pix', step s = .next { s' with pix := pix' } ∧ pix'.read a = some v ∧
        ∀ b, b ≠ a → pix'.read b = s.pix.read b)) ∧
  (∀ (s s' : State) (a : Nat), HostMove s (.access (.pixRead a 8)) s' →
    (s.status.busy = true → step s = .fault .busyAccess) ∧
    (s.status.busy = false → s.cfg.pixBytes ≤ a → step s = .fault .outOfRange) ∧
    (s.status.busy = false → a < s.cfg.pixBytes → s.pix.read a = none → step s = .fault .uninitialised) ∧
    (∀ v, s.status.busy = false → a < s.cfg.pixBytes → s.pix.read a = some v →
      step s = .next { s' with readData := some (v.setWidth 32) }))

/-- 43_host_interface.md R198: every access to MSG by the host, of 32 bits, as for PIX; every 32-bit value may be
written. -/
def Obligations.MsgAccessesReadAndWriteOneWord : Prop :=
  (∀ (s s' : State) (j : Nat) (v : Word), HostMove s (.access (.msgWrite j 32 v)) s' →
    (s.status.busy = true → step s = .fault .busyAccess) ∧
    (s.status.busy = false → s.cfg.msgWords ≤ j → step s = .fault .outOfRange) ∧
    (s.status.busy = false → j < s.cfg.msgWords →
      ∃ msg', step s = .next { s' with msg := msg' } ∧ msg'.read j = some v ∧
        ∀ k, k ≠ j → msg'.read k = s.msg.read k)) ∧
  (∀ (s s' : State) (j : Nat), HostMove s (.access (.msgRead j 32)) s' →
    (s.status.busy = true → step s = .fault .busyAccess) ∧
    (s.status.busy = false → s.cfg.msgWords ≤ j → step s = .fault .outOfRange) ∧
    (s.status.busy = false → j < s.cfg.msgWords → s.msg.read j = none → step s = .fault .uninitialised) ∧
    (∀ v, s.status.busy = false → j < s.cfg.msgWords → s.msg.read j = some v →
      step s = .next { s' with readData := some v }))

/-- An access of another width, or outside its space, or at a REG offset off a multiple of 4, faults with BadWidth or
OutOfRange (20_memory.md R56, R58, 10_state.md R33). Where both apply the spec orders nothing, and either may be reported
(log 11). -/
def Obligations.IllFormedAccessesFault : Prop :=
  ∀ (s s' : State) (a : Access), HostMove s (.access a) s' → s.status.busy = false →
    (a.widthOk = false → (a.alignedOk && a.rangeOk s.cfg) = true → step s = .fault .badWidth) ∧
    (a.widthOk = true → (a.alignedOk && a.rangeOk s.cfg) = false → step s = .fault .outOfRange) ∧
    (a.widthOk = false → (a.alignedOk && a.rangeOk s.cfg) = false →
      step s = .fault .badWidth ∨ step s = .fault .outOfRange)

/-- 43_host_interface.md R199: the busy rule. While BUSY = 1 every write to CMD, WIDTH, HEIGHT or MSG_LEN faults with
BusyWrite, every PIX or MSG access faults with BusyAccess, and REG reads and the ignored writes go through. -/
def Obligations.BusyRuleForEveryAccess : Prop :=
  ∀ (s s' : State), s.status.busy = true →
    (∀ o v, HostMove s (.access (.regWrite o 32 v)) s' → (o = 0x00 ∨ o = 0x08 ∨ o = 0x0C ∨ o = 0x10) →
      step s = .fault .busyWrite) ∧
    (∀ o v, HostMove s (.access (.regWrite o 32 v)) s' → (o = 0x04 ∨ o = 0x14 ∨ o = 0x18 ∨ o = 0x1C) →
      step s = .next s') ∧
    (∀ o, HostMove s (.access (.regRead o 32)) s' → o % 4 = 0 → o ≤ 0x1C →
      ∃ v, step s = .next { s' with readData := some v }) ∧
    (∀ a w v, HostMove s (.access (.pixWrite a w v)) s' → step s = .fault .busyAccess) ∧
    (∀ a w, HostMove s (.access (.pixRead a w)) s' → step s = .fault .busyAccess) ∧
    (∀ j w v, HostMove s (.access (.msgWrite j w v)) s' → step s = .fault .busyAccess) ∧
    (∀ j w, HostMove s (.access (.msgRead j w)) s' → step s = .fault .busyAccess)

/-- POLL reads STATUS, and ends exactly when BUSY = 0 (30_encoding.md R96, 43_host_interface.md R200): with BUSY = 1 the
loop is still the host's next move. -/
def Obligations.PollReadsStatusUntilNotBusy : Prop :=
  ∀ s s' : State, HostMove s .poll s' →
    (s.status.busy = false → step s = .next { s' with readData := some s.status.word }) ∧
    (s.status.busy = true → step s = .next { s' with inputs := s.inputs, readData := some s.status.word })

/-- While a command is pending, nothing the host does short of reset changes what the engine works on or has reported:
no access that goes through changes any state but the value it returns (20_memory.md R60, 43_host_interface.md R199). -/
def Obligations.HostCannotDisturbAPendingCommand : Prop :=
  ∀ (s s' t : State) (a : Access), s.Inv → s.engine.pending ≠ none → HostMove s (.access a) s' → step s = .next t →
    ∃ v, t = { s' with readData := v }

/-- WIDTH and HEIGHT are the host's: a transition that changes one is a host write of it, or a reset (10_state.md R29,
R30). -/
def Obligations.OnlyTheHostChangesWidthAndHeight : Prop :=
  ∀ s t : State, step s = .next t →
    (t.width ≠ s.width → (∃ s' v, HostMove s (.access (.regWrite 0x08 32 v)) s' ∧ t.width = v) ∨
      ∃ s', HostMove s .reset s') ∧
    (t.height ≠ s.height → (∃ s' v, HostMove s (.access (.regWrite 0x0C 32 v)) s' ∧ t.height = v) ∨
      ∃ s', HostMove s .reset s')

/-- MSG_LEN and BIT_LEN (10_state.md R31, R32): a transition that changes BIT_LEN is a successful command or a reset,
and one that changes MSG_LEN is a host write of it, a successful DECODE, or a reset. -/
def Obligations.WhatChangesMsgLenAndBitLen : Prop :=
  ∀ s t : State, s.Inv → step s = .next t →
    (t.bitLen ≠ s.bitLen → (∃ c s', EngineMove s c s' ∧ t.status.done = true) ∨ ∃ s', HostMove s .reset s') ∧
    (t.msgLen ≠ s.msgLen → (∃ s' v, HostMove s (.access (.regWrite 0x10 32 v)) s' ∧ t.msgLen = v) ∨
      (∃ s', EngineMove s .decode s' ∧ t.status.done = true) ∨ ∃ s', HostMove s .reset s')

/-- The green, blue and alpha bytes are the host's: a transition that changes one is a host write of that byte, reset
included (40_framer.md R117, 70_reset_and_hazards.md R243). -/
def Obligations.OnlyTheHostChangesGreenBlueAndAlpha : Prop :=
  ∀ (s t : State) (a : Nat), step s = .next t → a % 4 ≠ 0 → t.pix.read a ≠ s.pix.read a →
    ∃ s' v, HostMove s (.access (.pixWrite a 8 v)) s' ∧ t.pix.read a = some v

/-- The operands latched in the engine are not observable while nothing is pending (10_state.md R40): two blocks that
differ only there do the same, and differ at most there afterwards. -/
def Obligations.LatchedOperandsOfAnIdleEngineAreHidden : Prop :=
  ∀ (s : State) (e : Engine), s.engine.pending = none → e.pending = none →
    (∀ f, step s = .fault f → step { s with engine := e } = .fault f) ∧
    (∀ t, step s = .next t → ∃ e', step { s with engine := e } = .next { t with engine := e' } ∧
      (e' = t.engine ∨ (t.engine.pending = none ∧ e'.pending = none)))

/-! ## The reset input -/

/-- 70_reset_and_hazards.md R240: the reset input, at any time, gives every register its reset value and leaves nothing
pending, so STATUS is 0x00000000 and the block is idle; the host's program goes on. -/
def Obligations.ResetInputResetsEveryRegister : Prop :=
  ∀ s s' : State, HostMove s .reset s' →
    ∃ t, step s = .next t ∧ (∀ r, t.readReg r = 0) ∧ t.status.word = 0x00000000#32 ∧ t.engine.pending = none ∧
      t.inputs = s'.inputs ∧ t.cfg = s.cfg ∧ t.faulted = none ∧ t.readData = s.readData

/-- 70_reset_and_hazards.md R242, R243: reset of an idle block changes no location of PIX or MSG; reset during ENCODE
changes at most the red bytes of pixels `0 .. 32 + 8*n - 1`; reset during DECODE changes at most MSG words
`0 .. floor((P - 32) / 8) - 1`, and none if P < 32. -/
def Obligations.ResetTouchesOnlyTheAbandonedFootprint : Prop :=
  ∀ s s' t : State, HostMove s .reset s' → step s = .next t →
    (s.engine.pending = none → t.pix = s.pix ∧ t.msg = s.msg) ∧
    (s.engine.pending = some .encode → t.msg = s.msg ∧
      ∀ a, (∀ i < 32 + 8 * s.engine.n.toNat, a ≠ 4 * i) → t.pix.read a = s.pix.read a) ∧
    (s.engine.pending = some .decode → t.pix = s.pix ∧
      (pixels s < 32 → t.msg = s.msg) ∧
      ∀ j, (pixels s - 32) / 8 ≤ j → t.msg.read j = s.msg.read j)

/-! ## The framer -/

/-- 40_framer.md R113 and 30_encoding.md R89: the length of a frame and every bit of it. -/
def Obligations.FrameIsThePrefixThenTheBytes : Prop :=
  ∀ payload : List Byte, lengthFits payload = true →
    (frame payload).length = 32 + 8 * payload.length ∧
    (∀ i < 32, (frame payload)[i]? = some ((8 * payload.length).testBit (31 - i))) ∧
    (∀ j (h : j < payload.length), ∀ m < 8, (frame payload)[32 + 8 * j + m]? = some (payload[j].getLsbD (7 - m)))

/-- The inverse property, which the spec derives (40_framer.md R119). Rebuilding from a frame by 30_encoding.md R92
gives the bit length and every byte back, and the characters of a text of single bytes. -/
def Obligations.RebuildingAFrameGivesThePayloadBack : Prop :=
  (∀ payload : List Byte, lengthFits payload = true →
    (∑ k ∈ Finset.range 32, ((frame payload)[k]?.getD false).toNat <<< (31 - k)) = 8 * payload.length ∧
    ∀ j (h : j < payload.length),
      (∑ m ∈ Finset.range 8, ((frame payload)[32 + 8 * j + m]?.getD false).toNat <<< (7 - m)) = payload[j].toNat) ∧
  (∀ text : List Word, (∀ c ∈ text, c.toNat ≤ 0xFF) → (bytes text).map (fun b => b.setWidth 32) = text)

/-- 40_framer.md R111, R112, R116: BITLENGTH is exact, the largest length that fits is 2^29 - 1, and the carrier of
bit `i` is byte `4*i`. -/
def Obligations.BitLengthIsExactAndBounded : Prop :=
  (∀ payload : List Byte, bitLength payload = payload.length * 8) ∧
  (∀ payload : List Byte, lengthFits payload = true ↔ payload.length ≤ 2 ^ 29 - 1) ∧
  (∀ i, carrier i = 4 * i ∧ channelForBitIndex i = (i, 0))

/-- The memory operations: a read after a write, and the canonical form kept (70_reset_and_hazards.md R249). -/
def Obligations.MemoryWritesAreReadBack : Prop :=
  ∀ (m : Memory Byte) (a b : Nat) (v : Byte),
    (m.write a v).read b = (if b = a then some v else m.read b) ∧ (m.wf → (m.write a v).wf)
end

