-- ==== Sys2Proof/Laws/Decode.lean ====
section
/-! SUPPORT. The decoder, by the fields of the word (30_encoding.md R82, R83). -/

namespace Sys2Proof

/-- A word is its two fields. -/
theorem word_ext_fields {w w' : Word} (ho : w.extractLsb' 0 2 = w'.extractLsb' 0 2)
    (hr : w.extractLsb' 2 30 = w'.extractLsb' 2 30) : w = w' := by
  refine BitVec.eq_of_getLsbD_eq fun i hi => ?_
  by_cases h : i < 2
  · have := congrArg (·.getLsbD i) ho
    simpa [BitVec.getLsbD_extractLsb', h] using this
  · have := congrArg (·.getLsbD (i - 2)) hr
    simpa [BitVec.getLsbD_extractLsb', show i - 2 < 30 by omega, show 2 + (i - 2) = i by omega] using this

theorem decode_encode (i : Instr) : decode (encode i) = .ok i := by cases i <;> rfl

/-- RSVD not zero is refused by its name, whatever OP is. -/
theorem decode_reservedBits {w : Word} (h : w.extractLsb' 2 30 ≠ 0) : decode w = .error .reservedBits := by
  have hz : (cmdFields w).rsvdZero = false := beq_false_of_ne h
  simp [decode, hz]

theorem decode_of_rsvdZero {w : Word} (h : w.extractLsb' 2 30 = 0) : decode w = decodeOp (w.extractLsb' 0 2) := by
  have hz : (cmdFields w).rsvdZero = true := beq_iff_eq.2 h
  simp only [decode, hz, if_true]
  rfl

/-- OP = 11 is refused by its name. -/
theorem decode_reservedOp {w : Word} (hr : w.extractLsb' 2 30 = 0) (ho : w.extractLsb' 0 2 = 3) :
    decode w = .error .reservedOp := by
  rw [decode_of_rsvdZero hr, ho]; rfl

/-- Either field reserved: the word is refused. -/
theorem decode_reserved {w : Word} (h : w.extractLsb' 2 30 ≠ 0 ∨ w.extractLsb' 0 2 = 3) : ∃ e, decode w = .error e := by
  by_cases hr : w.extractLsb' 2 30 = 0
  · rcases h with h | h
    · exact absurd hr h
    · exact ⟨_, decode_reservedOp hr h⟩
  · exact ⟨_, decode_reservedBits hr⟩

end Sys2Proof
end

