-- ==== Sys2Proof/Laws/Framer.lean ====
section
/-! SUPPORT. What the framing functions say, bit by bit (40_framer.md R113 to R118). -/

namespace Sys2Proof.Machine

@[simp] theorem carrier_eq (i : Nat) : carrier i = 4 * i := rfl

@[simp] theorem bitLength_eq (payload : List Byte) : bitLength payload = payload.length * 8 := rfl

theorem lengthFits_iff (payload : List Byte) : lengthFits payload = true ↔ payload.length * 8 ≤ 2 ^ 32 - 1 :=
  decide_eq_true_iff

@[simp] theorem length_bytes (text : List Word) : (bytes text).length = text.length := by simp [bytes]

@[simp] theorem length_bitsMsbFirst {N : Nat} (v : BitVec N) : (bitsMsbFirst v).length = N := by simp [bitsMsbFirst]

theorem getElem?_bitsMsbFirst {N k : Nat} (v : BitVec N) (h : k < N) :
    (bitsMsbFirst v)[k]? = some (v.getLsbD (N - 1 - k)) := by
  simp [bitsMsbFirst, h]

theorem length_flatMap_bits (payload : List Byte) : (payload.flatMap bitsMsbFirst).length = 8 * payload.length := by
  induction payload with
  | nil => rfl
  | cons b bs ih => simp [ih]; omega

/-- Bit `m` of payload byte `j`, most-significant bit first (40_framer.md R113). -/
theorem getElem?_flatMap_bits (payload : List Byte) {j m : Nat} (hm : m < 8) :
    (payload.flatMap bitsMsbFirst)[8 * j + m]? = payload[j]?.map fun b => b.getLsbD (7 - m) := by
  induction payload generalizing j with
  | nil => simp
  | cons b bs ih =>
    rw [List.flatMap_cons]
    cases j with
    | zero =>
      rw [List.getElem?_append_left (by simpa using hm)]
      simp [getElem?_bitsMsbFirst b hm]
    | succ j =>
      rw [List.getElem?_append_right (by simp; omega), length_bitsMsbFirst,
        show 8 * (j + 1) + m - 8 = 8 * j + m by omega, ih]
      simp

/-- "the framed bit count" (40_framer.md R114). -/
@[simp] theorem length_frame (payload : List Byte) : (frame payload).length = 32 + 8 * payload.length := by
  rw [frame, List.length_append, length_bitsMsbFirst, length_flatMap_bits]

theorem getElem?_frame_prefix (payload : List Byte) {i : Nat} (h : i < 32) :
    (frame payload)[i]? = some ((BitVec.ofNat 32 (bitLength payload)).getLsbD (31 - i)) := by
  rw [frame, List.getElem?_append_left (by simpa using h)]
  exact getElem?_bitsMsbFirst _ h

theorem getElem?_frame_payload (payload : List Byte) {j m : Nat} (hm : m < 8) :
    (frame payload)[32 + 8 * j + m]? = payload[j]?.map fun b => b.getLsbD (7 - m) := by
  rw [frame, List.getElem?_append_right (by simp; omega), length_bitsMsbFirst, prefixBits,
    show 32 + 8 * j + m - 32 = 8 * j + m by omega]
  exact getElem?_flatMap_bits payload hm

/-- The bit written is the bit read, and nothing else of the byte moves (41_encoder.md R138). -/
@[simp] theorem setLsb_bit (old : Byte) (b : Bool) : (setLsb old b).getLsbD 0 = b := by
  cases b <;> simp [setLsb]

theorem setLsb_upper (old : Byte) (b : Bool) : setLsb old b >>> 1 = old >>> 1 := by
  revert old b; decide

/-- "`((v & 0xFE) | b) & 0xFE | b = (v & 0xFE) | b`" (41_encoder.md R143). -/
@[simp] theorem setLsb_setLsb (old : Byte) (b b' : Bool) : setLsb (setLsb old b) b' = setLsb old b' := by
  revert old b b'; decide

theorem setLsb_eq (old : Byte) (b : Bool) : setLsb old b = (old &&& 0xFE) ||| (if b then 1 else 0) := by
  cases b <;> rfl

end Sys2Proof.Machine
end

