-- ==== Sys2Proof/Laws/Memory.lean ====
section
/-! SUPPORT. The laws of the memory operations: a read after a write, the canonical form, equal memories. -/

namespace Sys2Proof.Machine

variable {α : Type}

@[simp] theorem Memory.read_nil (a : Nat) : Memory.read ([] : Memory α) a = none := rfl

@[simp] theorem Memory.read_cons (x : Nat × α) (m : Memory α) (a : Nat) :
    Memory.read (x :: m) a = if a = x.1 then some x.2 else m.read a := rfl

/-- A read after a write to the same place gives the value written. -/
@[simp] theorem Memory.read_write_same (m : Memory α) (a : Nat) (v : α) : (m.write a v).read a = some v := by
  induction m with
  | nil => simp [Memory.write]
  | cons x m ih =>
    simp only [Memory.write]
    split
    · simp
    · split
      · simp
      · next h => simp [h, ih]

/-- A write leaves every other place alone. -/
theorem Memory.read_write_ne (m : Memory α) {a b : Nat} (v : α) (h : b ≠ a) : (m.write a v).read b = m.read b := by
  induction m with
  | nil => simp [Memory.write, h]
  | cons x m ih =>
    simp only [Memory.write]
    split
    · simp [h]
    · split
      · next hx => subst hx; simp [h]
      · simp [ih]

theorem Memory.read_write (m : Memory α) (a b : Nat) (v : α) :
    (m.write a v).read b = if b = a then some v else m.read b := by
  split
  · next h => subst h; simp
  · next h => exact Memory.read_write_ne m v h

/-- What a write lists: the new entry and old entries. -/
theorem Memory.mem_write {m : Memory α} {a : Nat} {v : α} {x : Nat × α} (h : x ∈ m.write a v) : x = (a, v) ∨ x ∈ m := by
  induction m with
  | nil => simpa [Memory.write] using h
  | cons y m ih =>
    simp only [Memory.write] at h
    split at h
    · simpa using h
    · split at h
      · rcases List.mem_cons.1 h with h | h
        · exact .inl h
        · exact .inr (List.mem_cons_of_mem _ h)
      · rcases List.mem_cons.1 h with h | h
        · exact .inr (h ▸ List.mem_cons_self)
        · exact (ih h).imp_right (List.mem_cons_of_mem _)

/-- A write keeps the canonical form. -/
theorem Memory.write_wf {m : Memory α} (h : m.wf) (a : Nat) (v : α) : (m.write a v).wf := by
  induction m with
  | nil => simp [Memory.write, Memory.wf]
  | cons x m ih =>
    obtain ⟨hx, hm⟩ := List.pairwise_cons.1 h
    simp only [Memory.write]
    split
    · next hlt =>
      refine List.pairwise_cons.2 ⟨fun y hy => ?_, h⟩
      rcases List.mem_cons.1 hy with rfl | hy
      · exact hlt
      · exact Nat.lt_trans hlt (hx y hy)
    · split
      · next heq => exact List.pairwise_cons.2 ⟨fun y hy => heq ▸ hx y hy, hm⟩
      · next hlt hne =>
        refine List.pairwise_cons.2 ⟨fun y hy => ?_, ih hm⟩
        rcases Memory.mem_write hy with rfl | hy
        · exact Nat.lt_of_le_of_ne (Nat.le_of_not_lt hlt) (Ne.symm hne)
        · exact hx y hy

/-- A write inside a memory stays inside it. -/
theorem Memory.write_within {m : Memory α} {size a : Nat} (h : m.within size) (ha : a < size) (v : α) :
    (m.write a v).within size := by
  intro x hx
  rcases Memory.mem_write hx with rfl | hx
  · exact ha
  · exact h x hx

/-- A location that reads a value is listed. -/
theorem Memory.mem_of_read {m : Memory α} {a : Nat} {v : α} (h : m.read a = some v) : (a, v) ∈ m := by
  induction m with
  | nil => cases h
  | cons x m ih =>
    rw [Memory.read_cons] at h
    split at h
    · next hx => cases h; subst hx; exact List.mem_cons_self
    · exact List.mem_cons_of_mem _ (ih h)

/-- In canonical form, a listed location reads its value. -/
theorem Memory.read_of_mem {m : Memory α} (h : m.wf) {x : Nat × α} (hx : x ∈ m) : m.read x.1 = some x.2 := by
  induction m with
  | nil => cases hx
  | cons y m ih =>
    obtain ⟨hy, hm⟩ := List.pairwise_cons.1 h
    rcases List.mem_cons.1 hx with rfl | hx
    · simp
    · rw [Memory.read_cons, if_neg (Nat.ne_of_gt (hy x hx))]
      exact ih hm hx

/-- Equal memories are equal lists: two canonical memories that read the same everywhere are one. -/
theorem Memory.ext_of_wf {m m' : Memory α} (h : m.wf) (h' : m'.wf) (hr : ∀ a, m.read a = m'.read a) : m = m' := by
  have sub : ∀ {p q : Memory α}, p.wf → (∀ a, p.read a = q.read a) → ∀ x ∈ p, x ∈ q := fun hp hpq x hx =>
    Memory.mem_of_read ((hpq x.1).symm.trans (Memory.read_of_mem hp hx))
  have nodup : ∀ {p : Memory α}, p.wf → p.Nodup := fun hp =>
    List.Pairwise.imp (fun {x y} (hlt : x.1 < y.1) (he : x = y) => Nat.lt_irrefl y.1 (he ▸ hlt)) hp
  have hp : m.Perm m' :=
    (List.perm_ext_iff_of_nodup (nodup h) (nodup h')).2
      fun x => ⟨sub h hr x, sub h' (fun a => (hr a).symm) x⟩
  exact hp.eq_of_pairwise (fun _ _ _ _ hab hba => absurd hba (Nat.lt_asymm hab)) h h'

/-- What a read inside a memory of a given size can answer. -/
theorem Memory.readAt_eq_ok_iff (size : Nat) (m : Memory α) (a : Nat) (v : α) :
    m.readAt size a = .ok v ↔ a < size ∧ m.read a = some v := by
  unfold Memory.readAt
  split
  · next h => cases hr : m.read a <;> simp [h]
  · next h => simp [h]

/-- Inside the memory, a read faults only because nothing was written there. -/
theorem Memory.readAt_eq_error_iff (size : Nat) (m : Memory α) (a : Nat) (f : Fault) :
    m.readAt size a = .error f ↔
      (a < size ∧ m.read a = none ∧ f = .uninitialised) ∨ (size ≤ a ∧ f = .outOfRange) := by
  unfold Memory.readAt
  split
  · next h => cases hr : m.read a <;> simp [h, Nat.not_le.2 h, eq_comm]
  · next h => simp [h, Nat.le_of_not_lt h, eq_comm]

/-- What a write inside a memory of a given size can answer. -/
theorem Memory.writeAt_eq_ok_iff (size : Nat) (m m' : Memory α) (a : Nat) (v : α) :
    m.writeAt size a v = .ok m' ↔ a < size ∧ m' = m.write a v := by
  unfold Memory.writeAt
  split
  · next h => simp [h, eq_comm]
  · next h => simp [h]

theorem Memory.writeAt_eq_error_iff (size : Nat) (m : Memory α) (a : Nat) (v : α) (f : Fault) :
    m.writeAt size a v = .error f ↔ size ≤ a ∧ f = .outOfRange := by
  unfold Memory.writeAt
  split
  · next h => simp [Nat.not_le.2 h]
  · next h => simp [Nat.le_of_not_lt h, eq_comm]

end Sys2Proof.Machine
end

