-- ==== Sys2Proof/Laws/Operands.lean ====
section
/-! SUPPORT. What the operand reads can answer, and that assembling bits undoes listing them
(30_encoding.md R92, 40_framer.md R119). -/

namespace Sys2Proof.Machine

variable {α : Type}

/-! ## readRange -/

/-- A range is read whole, in order, or not at all. -/
theorem readRange_eq_ok_iff (size : Nat) (m : Memory α) (j k : Nat) (vs : List α) :
    m.readRange size j k = .ok vs ↔ vs.length = k ∧ ∀ i < k, j + i < size ∧ m.read (j + i) = vs[i]? := by
  induction k generalizing j vs with
  | zero => simp [Memory.readRange, eq_comm]
  | succ k ih =>
    simp only [Memory.readRange]
    constructor
    · intro h
      split at h
      · cases h
      · next v hv =>
        split at h
        · cases h
        · next ws hws =>
          cases h
          obtain ⟨hlen, hall⟩ := (ih _ _).1 hws
          refine ⟨by simp [hlen], fun i hi => ?_⟩
          cases i with
          | zero => simpa using (Memory.readAt_eq_ok_iff ..).1 hv
          | succ i =>
            have := hall i (by omega)
            rw [show j + (i + 1) = j + 1 + i by omega]
            simpa using this
    · rintro ⟨hlen, hall⟩
      cases vs with
      | nil => cases hlen
      | cons v ws =>
        have h0 : m.readAt size j = .ok v := by
          simpa [Memory.readAt_eq_ok_iff] using hall 0 (by omega)
        have hr : m.readRange size (j + 1) k = .ok ws := by
          refine (ih _ _).2 ⟨by simpa using hlen, fun i hi => ?_⟩
          have := hall (i + 1) (by omega)
          rw [show j + 1 + i = j + (i + 1) by omega]
          simpa using this
        rw [h0, hr]

/-- A range that is not read stops at one of its locations. -/
theorem readRange_error {size : Nat} {m : Memory α} {j k : Nat} {f : Fault} (h : m.readRange size j k = .error f) :
    ∃ i < k, m.readAt size (j + i) = .error f := by
  induction k generalizing j with
  | zero => cases h
  | succ k ih =>
    simp only [Memory.readRange] at h
    split at h
    · next hv => cases h; exact ⟨0, by omega, hv⟩
    · split at h
      · next hr =>
        cases h
        obtain ⟨i, hi, he⟩ := ih hr
        exact ⟨i + 1, by omega, by rwa [show j + (i + 1) = j + 1 + i by omega]⟩
      · cases h

/-- Inside the memory, a range is read when every location of it was written. -/
theorem readRange_total {size : Nat} {m : Memory α} {j k : Nat} (hs : j + k ≤ size)
    (h : ∀ i < k, ∃ v, m.read (j + i) = some v) : ∃ vs, m.readRange size j k = .ok vs := by
  cases hr : m.readRange size j k with
  | ok vs => exact ⟨vs, rfl⟩
  | error f =>
    obtain ⟨i, hi, he⟩ := readRange_error hr
    obtain ⟨v, hv⟩ := h i hi
    rcases (Memory.readAt_eq_error_iff ..).1 he with ⟨-, hn, -⟩ | ⟨hge, -⟩
    · rw [hv] at hn; cases hn
    · omega

/-- Inside the memory, a range with an unwritten location faults for that reason. -/
theorem readRange_uninitialised {size : Nat} {m : Memory α} {j k : Nat} (hs : j + k ≤ size)
    (h : ∃ i < k, m.read (j + i) = none) : m.readRange size j k = .error .uninitialised := by
  cases hr : m.readRange size j k with
  | ok vs =>
    obtain ⟨i, hi, hn⟩ := h
    obtain ⟨hlen, hall⟩ := (readRange_eq_ok_iff ..).1 hr
    have := (hall i hi).2
    rw [hn, List.getElem?_eq_getElem (by omega)] at this
    cases this
  | error f =>
    obtain ⟨i, hi, he⟩ := readRange_error hr
    rcases (Memory.readAt_eq_error_iff ..).1 he with ⟨-, -, hf⟩ | ⟨hge, -⟩
    · rw [hf]
    · omega

/-! ## readLsbs -/

/-- The LSBs are read whole, in order, or not at all. -/
theorem readLsbs_eq_ok_iff (size : Nat) (pix : Memory Byte) (i k : Nat) (bs : List Bool) :
    readLsbs size pix i k = .ok bs ↔
      bs.length = k ∧ ∀ t < k, 4 * (i + t) < size ∧ (pix.read (4 * (i + t))).map (·.getLsbD 0) = bs[t]? := by
  induction k generalizing i bs with
  | zero => simp [readLsbs, eq_comm]
  | succ k ih =>
    simp only [readLsbs, carrier_eq]
    constructor
    · intro h
      split at h
      · cases h
      · next v hv =>
        split at h
        · cases h
        · next ws hws =>
          cases h
          obtain ⟨hlen, hall⟩ := (ih _ _).1 hws
          refine ⟨by simp [hlen], fun t ht => ?_⟩
          cases t with
          | zero =>
            obtain ⟨ha, hb⟩ := (Memory.readAt_eq_ok_iff ..).1 hv
            simpa [hb] using ha
          | succ t =>
            have := hall t (by omega)
            rw [show i + (t + 1) = i + 1 + t by omega]
            simpa using this
    · rintro ⟨hlen, hall⟩
      cases bs with
      | nil => cases hlen
      | cons b ws =>
        obtain ⟨hs, hb⟩ := hall 0 (by omega)
        obtain ⟨v, hv, rfl⟩ := Option.map_eq_some_iff.1 (hb.trans List.getElem?_cons_zero)
        have h0 : pix.readAt size (4 * i) = .ok v :=
          (Memory.readAt_eq_ok_iff ..).2 ⟨by simpa using hs, hv⟩
        have hr : readLsbs size pix (i + 1) k = .ok ws := by
          refine (ih _ _).2 ⟨by simpa using hlen, fun t ht => ?_⟩
          have := hall (t + 1) (by omega)
          rw [show i + 1 + t = i + (t + 1) by omega]
          simpa using this
        rw [h0]
        simp only [hr]

theorem readLsbs_error {size : Nat} {pix : Memory Byte} {i k : Nat} {f : Fault} (h : readLsbs size pix i k = .error f) :
    ∃ t < k, pix.readAt size (4 * (i + t)) = .error f := by
  induction k generalizing i with
  | zero => cases h
  | succ k ih =>
    simp only [readLsbs, carrier_eq] at h
    split at h
    · next hv => cases h; exact ⟨0, by omega, hv⟩
    · split at h
      · next hr =>
        cases h
        obtain ⟨t, ht, he⟩ := ih hr
        exact ⟨t + 1, by omega, by rwa [show i + (t + 1) = i + 1 + t by omega]⟩
      · cases h

theorem readLsbs_total {size : Nat} {pix : Memory Byte} {i k : Nat} (hs : 4 * (i + k) ≤ size)
    (h : ∀ t < k, ∃ v, pix.read (4 * (i + t)) = some v) : ∃ bs, readLsbs size pix i k = .ok bs := by
  cases hr : readLsbs size pix i k with
  | ok bs => exact ⟨bs, rfl⟩
  | error f =>
    obtain ⟨t, ht, he⟩ := readLsbs_error hr
    obtain ⟨v, hv⟩ := h t ht
    rcases (Memory.readAt_eq_error_iff ..).1 he with ⟨-, hn, -⟩ | ⟨hge, -⟩
    · rw [hv] at hn; cases hn
    · omega

theorem readLsbs_uninitialised {size : Nat} {pix : Memory Byte} {i k : Nat} (hs : 4 * (i + k) ≤ size)
    (h : ∃ t < k, pix.read (4 * (i + t)) = none) : readLsbs size pix i k = .error .uninitialised := by
  cases hr : readLsbs size pix i k with
  | ok bs =>
    obtain ⟨t, ht, hn⟩ := h
    obtain ⟨hlen, hall⟩ := (readLsbs_eq_ok_iff ..).1 hr
    have := (hall t ht).2
    rw [hn, List.getElem?_eq_getElem (by omega)] at this
    cases this
  | error f =>
    obtain ⟨t, ht, he⟩ := readLsbs_error hr
    rcases (Memory.readAt_eq_error_iff ..).1 he with ⟨-, -, hf⟩ | ⟨hge, -⟩
    · rw [hf]
    · omega

/-- Only the red bytes named are looked at (20_memory.md R68). -/
theorem readLsbs_congr {size : Nat} {pix pix' : Memory Byte} {i k : Nat}
    (h : ∀ t < k, pix.read (4 * (i + t)) = pix'.read (4 * (i + t))) :
    readLsbs size pix i k = readLsbs size pix' i k := by
  induction k generalizing i with
  | zero => rfl
  | succ k ih =>
    have hi : pix.read (4 * i) = pix'.read (4 * i) := h 0 (by omega)
    have h0 : pix.readAt size (4 * i) = pix'.readAt size (4 * i) := by simp only [Memory.readAt, hi]
    have hr := ih (i := i + 1) fun t ht => by
      rw [show i + 1 + t = i + (t + 1) by omega]; exact h (t + 1) (by omega)
    simp only [readLsbs, carrier_eq, h0, hr]

/-! ## assembleMsb -/

/-- Bits spell less than two to their number. -/
theorem assembleMsb_lt (bs : List Bool) : assembleMsb bs < 2 ^ bs.length := by
  induction bs with
  | nil => simp [assembleMsb]
  | cons b bs ih =>
    simp only [assembleMsb, Nat.shiftLeft_eq, List.length_cons, Nat.pow_succ]
    have : b.toNat * 2 ^ bs.length ≤ 1 * 2 ^ bs.length := Nat.mul_le_mul_right _ b.toNat_le
    omega

/-- The sum of 30_encoding.md R92. -/
theorem assembleMsb_eq_sum (bs : List Bool) :
    assembleMsb bs = ∑ k ∈ Finset.range bs.length, (bs.getD k false).toNat <<< (bs.length - 1 - k) := by
  induction bs with
  | nil => rfl
  | cons b bs ih =>
    rw [assembleMsb, ih, List.length_cons, Finset.sum_range_succ']
    simp only [List.getD_cons_succ, List.getD_cons_zero, Nat.add_sub_cancel, Nat.sub_zero]
    rw [Nat.add_comm]
    congr 1
    refine Finset.sum_congr rfl fun k _ => ?_
    rw [show bs.length - (k + 1) = bs.length - 1 - k by omega]

theorem assembleMsb_testBits (x N : Nat) :
    assembleMsb ((List.range N).map fun k => x.testBit (N - 1 - k)) = x % 2 ^ N := by
  induction N with
  | zero => simp [assembleMsb, Nat.mod_one]
  | succ N ih =>
    have hf : ((fun k => x.testBit (N + 1 - 1 - k)) ∘ Nat.succ) = fun k => x.testBit (N - 1 - k) := by
      funext k
      simp only [Function.comp, Nat.succ_eq_add_one]
      rw [show N + 1 - 1 - (k + 1) = N - 1 - k by omega]
    rw [List.range_succ_eq_map, List.map_cons, List.map_map, hf, assembleMsb, ih, Nat.mod_pow_succ,
      Nat.shiftLeft_eq]
    simp [Nat.toNat_testBit, Nat.mul_comm, Nat.add_comm]

/-- Assembling the bits of a value gives the value back (40_framer.md R119). -/
theorem assembleMsb_bitsMsbFirst {N : Nat} (v : BitVec N) : assembleMsb (bitsMsbFirst v) = v.toNat :=
  (assembleMsb_testBits v.toNat N).trans (Nat.mod_eq_of_lt v.isLt)

/-! ## readHeader and readPayload -/

theorem readHeader_eq_ok_iff (size : Nat) (pix : Memory Byte) (L : Word) :
    readHeader size pix = .ok L ↔ ∃ bs, readLsbs size pix 0 32 = .ok bs ∧ L = BitVec.ofNat 32 (assembleMsb bs) := by
  unfold readHeader
  rw [prefixBits]
  cases readLsbs size pix 0 32 with
  | error f => simp
  | ok bs => simp [eq_comm]

theorem readPayload_eq_ok_iff (size : Nat) (pix : Memory Byte) (j k : Nat) (ps : List Byte) :
    readPayload size pix j k = .ok ps ↔
      ps.length = k ∧ ∀ t < k, ∃ bs, readLsbs size pix (32 + 8 * (j + t)) 8 = .ok bs ∧
        ps[t]? = some (BitVec.ofNat 8 (assembleMsb bs)) := by
  induction k generalizing j ps with
  | zero => simp [readPayload, eq_comm (a := ([] : List Byte))]
  | succ k ih =>
    simp only [readPayload, prefixBits, byteBits]
    constructor
    · intro h
      split at h
      · cases h
      · next bs hbs =>
        split at h
        · cases h
        · next rest hrest =>
          cases h
          obtain ⟨hlen, hall⟩ := (ih _ _).1 hrest
          refine ⟨by simp [hlen], fun t ht => ?_⟩
          cases t with
          | zero => exact ⟨bs, by simpa using hbs, by simp⟩
          | succ t =>
            have := hall t (by omega)
            rw [show j + (t + 1) = j + 1 + t by omega]
            simpa using this
    · rintro ⟨hlen, hall⟩
      cases ps with
      | nil => cases hlen
      | cons p rest =>
        obtain ⟨bs, hbs, hp⟩ := hall 0 (by omega)
        have hr : readPayload size pix (j + 1) k = .ok rest := by
          refine (ih _ _).2 ⟨by simpa using hlen, fun t ht => ?_⟩
          have := hall (t + 1) (by omega)
          rw [show j + 1 + t = j + (t + 1) by omega]
          simpa using this
        rw [Nat.add_zero] at hbs
        simp only [hbs, hr]
        simpa using hp.symm

theorem readPayload_error {size : Nat} {pix : Memory Byte} {j k : Nat} {f : Fault}
    (h : readPayload size pix j k = .error f) :
    ∃ t < k, readLsbs size pix (32 + 8 * (j + t)) 8 = .error f := by
  induction k generalizing j with
  | zero => cases h
  | succ k ih =>
    simp only [readPayload, prefixBits, byteBits] at h
    split at h
    · next hv => cases h; exact ⟨0, by omega, by simpa using hv⟩
    · split at h
      · next hr =>
        cases h
        obtain ⟨t, ht, he⟩ := ih hr
        exact ⟨t + 1, by omega, by rwa [show j + (t + 1) = j + 1 + t by omega]⟩
      · cases h

theorem readPayload_congr {size : Nat} {pix pix' : Memory Byte} {j k : Nat}
    (h : ∀ i, 32 + 8 * j ≤ i → i < 32 + 8 * (j + k) → pix.read (4 * i) = pix'.read (4 * i)) :
    readPayload size pix j k = readPayload size pix' j k := by
  induction k generalizing j with
  | zero => rfl
  | succ k ih =>
    have h0 := readLsbs_congr (size := size) (pix := pix) (pix' := pix') (i := 32 + 8 * j) (k := 8)
      fun t ht => h _ (by omega) (by omega)
    have hr := ih (j := j + 1) fun i hi hi' => h i (by omega) (by omega)
    simp only [readPayload, prefixBits, byteBits, h0, hr]

end Sys2Proof.Machine
end

