-- ==== Sys2Proof/Laws/State.lean ====
section
/-! SUPPORT. One lemma for each field of State under each named update, and the small facts of STATUS and of the
register names. -/

namespace Sys2Proof.Machine

/-! ## acceptCommand -/

@[simp] theorem acceptCommand_cfg (c : Command) (s : State) : (acceptCommand c s).cfg = s.cfg := rfl
@[simp] theorem acceptCommand_width (c : Command) (s : State) : (acceptCommand c s).width = s.width := rfl
@[simp] theorem acceptCommand_height (c : Command) (s : State) : (acceptCommand c s).height = s.height := rfl
@[simp] theorem acceptCommand_msgLen (c : Command) (s : State) : (acceptCommand c s).msgLen = s.msgLen := rfl
@[simp] theorem acceptCommand_bitLen (c : Command) (s : State) : (acceptCommand c s).bitLen = s.bitLen := rfl
@[simp] theorem acceptCommand_status (c : Command) (s : State) : (acceptCommand c s).status = Status.started := rfl
@[simp] theorem acceptCommand_pix (c : Command) (s : State) : (acceptCommand c s).pix = s.pix := rfl
@[simp] theorem acceptCommand_msg (c : Command) (s : State) : (acceptCommand c s).msg = s.msg := rfl
@[simp] theorem acceptCommand_engine (c : Command) (s : State) : (acceptCommand c s).engine = { pending := some c, w := s.width, h := s.height, n := s.msgLen } := rfl
@[simp] theorem acceptCommand_faulted (c : Command) (s : State) : (acceptCommand c s).faulted = s.faulted := rfl
@[simp] theorem acceptCommand_inputs (c : Command) (s : State) : (acceptCommand c s).inputs = s.inputs := rfl
@[simp] theorem acceptCommand_turns (c : Command) (s : State) : (acceptCommand c s).turns = s.turns := rfl
@[simp] theorem acceptCommand_readData (c : Command) (s : State) : (acceptCommand c s).readData = s.readData := rfl
@[simp] theorem acceptCommand_draws (c : Command) (s : State) : (acceptCommand c s).draws = s.draws := rfl

/-! ## raiseError -/

@[simp] theorem raiseError_cfg (e : ErrorKind) (s : State) : (raiseError e s).cfg = s.cfg := rfl
@[simp] theorem raiseError_width (e : ErrorKind) (s : State) : (raiseError e s).width = s.width := rfl
@[simp] theorem raiseError_height (e : ErrorKind) (s : State) : (raiseError e s).height = s.height := rfl
@[simp] theorem raiseError_msgLen (e : ErrorKind) (s : State) : (raiseError e s).msgLen = s.msgLen := rfl
@[simp] theorem raiseError_bitLen (e : ErrorKind) (s : State) : (raiseError e s).bitLen = s.bitLen := rfl
@[simp] theorem raiseError_status (e : ErrorKind) (s : State) : (raiseError e s).status = Status.failed e := rfl
@[simp] theorem raiseError_pix (e : ErrorKind) (s : State) : (raiseError e s).pix = s.pix := rfl
@[simp] theorem raiseError_msg (e : ErrorKind) (s : State) : (raiseError e s).msg = s.msg := rfl
@[simp] theorem raiseError_engine (e : ErrorKind) (s : State) : (raiseError e s).engine = { s.engine with pending := none } := rfl
@[simp] theorem raiseError_faulted (e : ErrorKind) (s : State) : (raiseError e s).faulted = s.faulted := rfl
@[simp] theorem raiseError_inputs (e : ErrorKind) (s : State) : (raiseError e s).inputs = s.inputs := rfl
@[simp] theorem raiseError_turns (e : ErrorKind) (s : State) : (raiseError e s).turns = s.turns := rfl
@[simp] theorem raiseError_readData (e : ErrorKind) (s : State) : (raiseError e s).readData = s.readData := rfl
@[simp] theorem raiseError_draws (e : ErrorKind) (s : State) : (raiseError e s).draws = s.draws := rfl

/-! ## completeCommand -/

@[simp] theorem completeCommand_cfg (s : State) : (completeCommand s).cfg = s.cfg := rfl
@[simp] theorem completeCommand_width (s : State) : (completeCommand s).width = s.width := rfl
@[simp] theorem completeCommand_height (s : State) : (completeCommand s).height = s.height := rfl
@[simp] theorem completeCommand_msgLen (s : State) : (completeCommand s).msgLen = s.msgLen := rfl
@[simp] theorem completeCommand_bitLen (s : State) : (completeCommand s).bitLen = s.bitLen := rfl
@[simp] theorem completeCommand_status (s : State) : (completeCommand s).status = Status.succeeded := rfl
@[simp] theorem completeCommand_pix (s : State) : (completeCommand s).pix = s.pix := rfl
@[simp] theorem completeCommand_msg (s : State) : (completeCommand s).msg = s.msg := rfl
@[simp] theorem completeCommand_engine (s : State) : (completeCommand s).engine = { s.engine with pending := none } := rfl
@[simp] theorem completeCommand_faulted (s : State) : (completeCommand s).faulted = s.faulted := rfl
@[simp] theorem completeCommand_inputs (s : State) : (completeCommand s).inputs = s.inputs := rfl
@[simp] theorem completeCommand_turns (s : State) : (completeCommand s).turns = s.turns := rfl
@[simp] theorem completeCommand_readData (s : State) : (completeCommand s).readData = s.readData := rfl
@[simp] theorem completeCommand_draws (s : State) : (completeCommand s).draws = s.draws := rfl

/-! ## returnToHost -/

@[simp] theorem returnToHost_cfg (v : Word) (s : State) : (returnToHost v s).cfg = s.cfg := rfl
@[simp] theorem returnToHost_width (v : Word) (s : State) : (returnToHost v s).width = s.width := rfl
@[simp] theorem returnToHost_height (v : Word) (s : State) : (returnToHost v s).height = s.height := rfl
@[simp] theorem returnToHost_msgLen (v : Word) (s : State) : (returnToHost v s).msgLen = s.msgLen := rfl
@[simp] theorem returnToHost_bitLen (v : Word) (s : State) : (returnToHost v s).bitLen = s.bitLen := rfl
@[simp] theorem returnToHost_status (v : Word) (s : State) : (returnToHost v s).status = s.status := rfl
@[simp] theorem returnToHost_pix (v : Word) (s : State) : (returnToHost v s).pix = s.pix := rfl
@[simp] theorem returnToHost_msg (v : Word) (s : State) : (returnToHost v s).msg = s.msg := rfl
@[simp] theorem returnToHost_engine (v : Word) (s : State) : (returnToHost v s).engine = s.engine := rfl
@[simp] theorem returnToHost_faulted (v : Word) (s : State) : (returnToHost v s).faulted = s.faulted := rfl
@[simp] theorem returnToHost_inputs (v : Word) (s : State) : (returnToHost v s).inputs = s.inputs := rfl
@[simp] theorem returnToHost_turns (v : Word) (s : State) : (returnToHost v s).turns = s.turns := rfl
@[simp] theorem returnToHost_readData (v : Word) (s : State) : (returnToHost v s).readData = some v := rfl
@[simp] theorem returnToHost_draws (v : Word) (s : State) : (returnToHost v s).draws = s.draws := rfl

/-! ## withInputs -/

@[simp] theorem withInputs_cfg (s : State) (is : List Input) : (s.withInputs is).cfg = s.cfg := rfl
@[simp] theorem withInputs_width (s : State) (is : List Input) : (s.withInputs is).width = s.width := rfl
@[simp] theorem withInputs_height (s : State) (is : List Input) : (s.withInputs is).height = s.height := rfl
@[simp] theorem withInputs_msgLen (s : State) (is : List Input) : (s.withInputs is).msgLen = s.msgLen := rfl
@[simp] theorem withInputs_bitLen (s : State) (is : List Input) : (s.withInputs is).bitLen = s.bitLen := rfl
@[simp] theorem withInputs_status (s : State) (is : List Input) : (s.withInputs is).status = s.status := rfl
@[simp] theorem withInputs_pix (s : State) (is : List Input) : (s.withInputs is).pix = s.pix := rfl
@[simp] theorem withInputs_msg (s : State) (is : List Input) : (s.withInputs is).msg = s.msg := rfl
@[simp] theorem withInputs_engine (s : State) (is : List Input) : (s.withInputs is).engine = s.engine := rfl
@[simp] theorem withInputs_faulted (s : State) (is : List Input) : (s.withInputs is).faulted = s.faulted := rfl
@[simp] theorem withInputs_inputs (s : State) (is : List Input) : (s.withInputs is).inputs = is := rfl
@[simp] theorem withInputs_turns (s : State) (is : List Input) : (s.withInputs is).turns = s.turns := rfl
@[simp] theorem withInputs_readData (s : State) (is : List Input) : (s.withInputs is).readData = s.readData := rfl
@[simp] theorem withInputs_draws (s : State) (is : List Input) : (s.withInputs is).draws = s.draws := rfl

/-! ## withTurns -/

@[simp] theorem withTurns_cfg (s : State) (ts : List Turn) : (s.withTurns ts).cfg = s.cfg := rfl
@[simp] theorem withTurns_width (s : State) (ts : List Turn) : (s.withTurns ts).width = s.width := rfl
@[simp] theorem withTurns_height (s : State) (ts : List Turn) : (s.withTurns ts).height = s.height := rfl
@[simp] theorem withTurns_msgLen (s : State) (ts : List Turn) : (s.withTurns ts).msgLen = s.msgLen := rfl
@[simp] theorem withTurns_bitLen (s : State) (ts : List Turn) : (s.withTurns ts).bitLen = s.bitLen := rfl
@[simp] theorem withTurns_status (s : State) (ts : List Turn) : (s.withTurns ts).status = s.status := rfl
@[simp] theorem withTurns_pix (s : State) (ts : List Turn) : (s.withTurns ts).pix = s.pix := rfl
@[simp] theorem withTurns_msg (s : State) (ts : List Turn) : (s.withTurns ts).msg = s.msg := rfl
@[simp] theorem withTurns_engine (s : State) (ts : List Turn) : (s.withTurns ts).engine = s.engine := rfl
@[simp] theorem withTurns_faulted (s : State) (ts : List Turn) : (s.withTurns ts).faulted = s.faulted := rfl
@[simp] theorem withTurns_inputs (s : State) (ts : List Turn) : (s.withTurns ts).inputs = s.inputs := rfl
@[simp] theorem withTurns_turns (s : State) (ts : List Turn) : (s.withTurns ts).turns = ts := rfl
@[simp] theorem withTurns_readData (s : State) (ts : List Turn) : (s.withTurns ts).readData = s.readData := rfl
@[simp] theorem withTurns_draws (s : State) (ts : List Turn) : (s.withTurns ts).draws = s.draws := rfl

/-! ## resetRegisters -/

@[simp] theorem resetRegisters_cfg (s : State) : (resetRegisters s).cfg = s.cfg := rfl
@[simp] theorem resetRegisters_width (s : State) : (resetRegisters s).width = 0 := rfl
@[simp] theorem resetRegisters_height (s : State) : (resetRegisters s).height = 0 := rfl
@[simp] theorem resetRegisters_msgLen (s : State) : (resetRegisters s).msgLen = 0 := rfl
@[simp] theorem resetRegisters_bitLen (s : State) : (resetRegisters s).bitLen = 0 := rfl
@[simp] theorem resetRegisters_status (s : State) : (resetRegisters s).status = Status.reset := rfl
@[simp] theorem resetRegisters_pix (s : State) : (resetRegisters s).pix = s.pix := rfl
@[simp] theorem resetRegisters_msg (s : State) : (resetRegisters s).msg = s.msg := rfl
@[simp] theorem resetRegisters_engine (s : State) : (resetRegisters s).engine = Engine.reset := rfl
@[simp] theorem resetRegisters_faulted (s : State) : (resetRegisters s).faulted = s.faulted := rfl
@[simp] theorem resetRegisters_inputs (s : State) : (resetRegisters s).inputs = s.inputs := rfl
@[simp] theorem resetRegisters_turns (s : State) : (resetRegisters s).turns = s.turns := rfl
@[simp] theorem resetRegisters_readData (s : State) : (resetRegisters s).readData = s.readData := rfl
@[simp] theorem resetRegisters_draws (s : State) : (resetRegisters s).draws = s.draws := rfl

/-! ## abandonCommand: only PIX, MSG and the draw counter -/

@[simp] theorem abandonCommand_cfg (s : State) : (abandonCommand s).cfg = s.cfg := by
  unfold abandonCommand; split <;> rfl
@[simp] theorem abandonCommand_width (s : State) : (abandonCommand s).width = s.width := by
  unfold abandonCommand; split <;> rfl
@[simp] theorem abandonCommand_height (s : State) : (abandonCommand s).height = s.height := by
  unfold abandonCommand; split <;> rfl
@[simp] theorem abandonCommand_msgLen (s : State) : (abandonCommand s).msgLen = s.msgLen := by
  unfold abandonCommand; split <;> rfl
@[simp] theorem abandonCommand_bitLen (s : State) : (abandonCommand s).bitLen = s.bitLen := by
  unfold abandonCommand; split <;> rfl
@[simp] theorem abandonCommand_status (s : State) : (abandonCommand s).status = s.status := by
  unfold abandonCommand; split <;> rfl
@[simp] theorem abandonCommand_engine (s : State) : (abandonCommand s).engine = s.engine := by
  unfold abandonCommand; split <;> rfl
@[simp] theorem abandonCommand_faulted (s : State) : (abandonCommand s).faulted = s.faulted := by
  unfold abandonCommand; split <;> rfl
@[simp] theorem abandonCommand_inputs (s : State) : (abandonCommand s).inputs = s.inputs := by
  unfold abandonCommand; split <;> rfl
@[simp] theorem abandonCommand_turns (s : State) : (abandonCommand s).turns = s.turns := by
  unfold abandonCommand; split <;> rfl
@[simp] theorem abandonCommand_readData (s : State) : (abandonCommand s).readData = s.readData := by
  unfold abandonCommand; split <;> rfl

theorem abandonCommand_idle (s : State) (h : s.engine.pending = none) : abandonCommand s = s := by
  unfold abandonCommand; rw [h]

/-! ## STATUS -/

@[simp] theorem Status.reset_busy : Status.reset.busy = false := rfl
@[simp] theorem Status.started_busy : Status.started.busy = true := rfl
@[simp] theorem Status.succeeded_busy : Status.succeeded.busy = false := rfl
@[simp] theorem Status.failed_busy (e : ErrorKind) : (Status.failed e).busy = false := rfl
@[simp] theorem Status.reset_err : Status.reset.err = false := rfl
@[simp] theorem Status.started_err : Status.started.err = false := rfl
@[simp] theorem Status.succeeded_err : Status.succeeded.err = false := rfl
@[simp] theorem Status.failed_err (e : ErrorKind) : (Status.failed e).err = true := rfl
@[simp] theorem Status.reset_done : Status.reset.done = false := rfl
@[simp] theorem Status.started_done : Status.started.done = false := rfl
@[simp] theorem Status.succeeded_done : Status.succeeded.done = true := rfl
@[simp] theorem Status.failed_done (e : ErrorKind) : (Status.failed e).done = false := rfl
@[simp] theorem Status.failed_errcode (e : ErrorKind) : (Status.failed e).errcode = e.code := rfl

@[simp] theorem Engine.reset_pending : Engine.reset.pending = none := rfl

/-! ## Register names -/

@[simp] theorem Reg.ofOffset_offset (r : Reg) : Reg.ofOffset r.offset = some r := by cases r <;> rfl

/-- An offset names a register exactly when it is that register's (10_state.md R22, R33). -/
theorem Reg.ofOffset_eq_some_iff (o : Nat) (r : Reg) : Reg.ofOffset o = some r ↔ o = r.offset := by
  refine ⟨fun h => ?_, fun h => h ▸ Reg.ofOffset_offset r⟩
  unfold Reg.ofOffset at h
  repeat' split at h
  all_goals first | (cases h; assumption) | cases h

/-- An offset names no register exactly when it lies above 0x1C or off a multiple of 4 (10_state.md R33). -/
theorem Reg.ofOffset_eq_none_iff (o : Nat) : Reg.ofOffset o = none ↔ 0x1C < o ∨ o % 4 ≠ 0 := by
  unfold Reg.ofOffset
  repeat' split
  all_goals simp
  all_goals omega

end Sys2Proof.Machine
end

