-- ==== Sys2Proof/Laws/Decoder.lean ====
section
/-! SUPPORT. What DECODE can do: the output, the engine's transition, the CMD write (42_decoder.md). -/

namespace Sys2Proof.Machine

/-! ## writeCharacters -/

/-- Everything the output does: word `j + t` takes byte `t`, every other word stays (42_decoder.md R169). -/
theorem writeCharacters_ok {size j : Nat} {bs : List Byte} {msg msg' : Memory Word}
    (h : writeCharacters size j bs msg = .ok msg') :
    (∀ t < bs.length, j + t < size ∧ msg'.read (j + t) = bs[t]?.map (·.setWidth 32)) ∧
    (∀ a, (∀ t < bs.length, a ≠ j + t) → msg'.read a = msg.read a) ∧
    (msg.wf → msg'.wf) ∧ (msg.within size → msg'.within size) := by
  induction bs generalizing j msg with
  | nil => cases h; simp
  | cons b bs ih =>
    simp only [writeCharacters] at h
    split at h
    · cases h
    · next mid hmid =>
      obtain ⟨hlt, rfl⟩ := (Memory.writeAt_eq_ok_iff ..).1 hmid
      obtain ⟨hbs, hrest, hwf, hwithin⟩ := ih h
      refine ⟨fun t ht => ?_, fun a ha => ?_, fun w => hwf (Memory.write_wf w _ _),
        fun w => hwithin (Memory.write_within w hlt _)⟩
      · cases t with
        | zero =>
          refine ⟨hlt, ?_⟩
          rw [Nat.add_zero, hrest _ fun t _ => by omega, Memory.read_write_same]
          rfl
        | succ t =>
          have := hbs t (by simpa using ht)
          rw [show j + (t + 1) = j + 1 + t by omega]
          simpa using this
      · rw [hrest a fun t ht => ?_, Memory.read_write_ne]
        · exact ha 0 (by simp)
        · have := ha (t + 1) (by simpa using ht)
          rwa [show j + 1 + t = j + (t + 1) by omega]

theorem writeCharacters_total {size j : Nat} {bs : List Byte} {msg : Memory Word} (hs : j + bs.length ≤ size) :
    ∃ msg', writeCharacters size j bs msg = .ok msg' := by
  induction bs generalizing j msg with
  | nil => exact ⟨msg, rfl⟩
  | cons b bs ih =>
    have hl : bs.length + 1 = (b :: bs).length := rfl
    have hw : msg.writeAt size j (b.setWidth 32) = .ok (msg.write j (b.setWidth 32)) :=
      (Memory.writeAt_eq_ok_iff ..).2 ⟨by omega, rfl⟩
    simp only [writeCharacters, hw]
    exact ih (by omega)

theorem writeCharacters_error {size j : Nat} {bs : List Byte} {msg : Memory Word} {f : Fault}
    (h : writeCharacters size j bs msg = .error f) : size < j + bs.length ∧ f = .outOfRange := by
  induction bs generalizing j msg with
  | nil => cases h
  | cons b bs ih =>
    have hl : bs.length + 1 = (b :: bs).length := rfl
    simp only [writeCharacters] at h
    split at h
    · next hw =>
      cases h
      obtain ⟨h1, h2⟩ := (Memory.writeAt_eq_error_iff ..).1 hw
      exact ⟨by omega, h2⟩
    · obtain ⟨h1, h2⟩ := ih h
      exact ⟨by omega, h2⟩

/-! ## The engine's transition -/

/-- Everything the engine's DECODE can answer as a next state: one of its three errors, or the extracted payload. -/
theorem engineDecode_next {s t : State} (h : engineDecode s = .next t) :
    (∃ e, (e = .truncatedHeader ∨ e = .malformedLength ∨ e = .capacityExceeded) ∧ t = raiseError e s) ∨
    (∃ L payload msg', readHeader s.cfg.pixBytes s.pix = .ok L ∧ L.toNat % 8 = 0 ∧
      32 + L.toNat ≤ s.engine.pixelCount ∧ readPayload s.cfg.pixBytes s.pix 0 (L.toNat / 8) = .ok payload ∧
      writeCharacters s.cfg.msgWords 0 payload s.msg = .ok msg' ∧
      t = completeCommand { s with msg := msg', msgLen := BitVec.ofNat 32 (L.toNat / 8), bitLen := L }) := by
  unfold engineDecode at h
  split at h
  · cases h; exact .inl ⟨_, .inl rfl, rfl⟩
  · split at h
    · cases h
    · next L hL =>
      split at h
      · cases h; exact .inl ⟨_, .inr (.inl rfl), rfl⟩
      · next hmod =>
        split at h
        · cases h; exact .inl ⟨_, .inr (.inr rfl), rfl⟩
        · next hcap =>
          unfold extractPayload at h
          split at h
          · cases h
          · next payload hp =>
            split at h
            · cases h
            · next msg' hm =>
              cases h
              exact .inr ⟨L, payload, msg', hL, by simpa using hmod, Nat.le_of_not_lt hcap, hp, hm, rfl⟩

/-- An image too small for the header (42_decoder.md R164). -/
theorem engineDecode_truncated {s : State} (hP : s.engine.pixelCount < 32) :
    engineDecode s = .next (raiseError .truncatedHeader s) := by
  simp [engineDecode, hP]

/-- With the header read, DECODE is its two checks and the output (42_decoder.md R166 to R169). -/
theorem engineDecode_header {s : State} {L : Word} (hP : 32 ≤ s.engine.pixelCount)
    (hL : readHeader s.cfg.pixBytes s.pix = .ok L) :
    engineDecode s =
      if L.toNat % 8 ≠ 0 then .next (raiseError .malformedLength s)
      else if s.engine.pixelCount < 32 + L.toNat then .next (raiseError .capacityExceeded s)
      else extractPayload L s := by
  unfold engineDecode
  rw [if_neg (Nat.not_lt.2 hP), hL]

theorem engineDecode_headerFault {s : State} {f : Fault} (hP : 32 ≤ s.engine.pixelCount)
    (hL : readHeader s.cfg.pixBytes s.pix = .error f) : engineDecode s = .fault f := by
  unfold engineDecode
  rw [if_neg (Nat.not_lt.2 hP), hL]

/-! ## The CMD write -/

theorem startDecode_next {s t : State} (h : startDecode s = .next t) :
    s.status.busy = false ∧ 4 * (s.width.toNat * s.height.toNat) ≤ s.cfg.pixBytes ∧
      t = acceptCommand .decode s := by
  unfold startDecode at h
  split at h
  · cases h
  · next hb =>
    split at h
    · cases h
    · next hg =>
      cases h
      exact ⟨by simpa using hb, Nat.le_of_not_lt hg, rfl⟩

theorem startDecode_accepts {s : State} (hb : s.status.busy = false)
    (hg : 4 * (s.width.toNat * s.height.toNat) ≤ s.cfg.pixBytes) :
    startDecode s = .next (acceptCommand .decode s) := by
  unfold startDecode
  rw [if_neg (by simp [hb]), if_neg (Nat.not_lt.2 hg)]

/-! ## execDecode, by what is pending -/

theorem execDecode_idle {s : State} (h : s.engine.pending = none) : execDecode s = startDecode s := by
  simp only [execDecode, h]

theorem execDecode_pending {s : State} (h : s.engine.pending = some .decode) : execDecode s = engineDecode s := by
  simp only [execDecode, h]

theorem execDecode_other {s : State} (h : s.engine.pending = some .encode) : execDecode s = .fault .busyWrite := by
  simp only [execDecode, h]

end Sys2Proof.Machine
end

