-- ==== Sys2Proof/Laws/Encoder.lean ====
section
/-! SUPPORT. What ENCODE can do: the write phase, the engine's transition, the CMD write (41_encoder.md). -/

namespace Sys2Proof.Machine

/-! ## writeLsbs -/

/-- Everything the write phase does when it ends: each carrier named was written before and takes its bit, every other
byte stays, and the canonical form and the size are kept (41_encoder.md R138, R142). -/
theorem writeLsbs_ok {size i : Nat} {bs : List Bool} {pix pix' : Memory Byte}
    (h : writeLsbs size i bs pix = .ok pix') :
    (∀ t < bs.length, ∃ v b, 4 * (i + t) < size ∧ pix.read (4 * (i + t)) = some v ∧ bs[t]? = some b ∧
      pix'.read (4 * (i + t)) = some (setLsb v b)) ∧
    (∀ a, (∀ t < bs.length, a ≠ 4 * (i + t)) → pix'.read a = pix.read a) ∧
    (pix.wf → pix'.wf) ∧ (pix.within size → pix'.within size) := by
  induction bs generalizing i pix with
  | nil => cases h; simp
  | cons b bs ih =>
    simp only [writeLsbs, carrier_eq] at h
    split at h
    · cases h
    · next v hv =>
      split at h
      · cases h
      · next mid hmid =>
        obtain ⟨hlt, hold⟩ := (Memory.readAt_eq_ok_iff ..).1 hv
        obtain ⟨-, rfl⟩ := (Memory.writeAt_eq_ok_iff ..).1 hmid
        obtain ⟨hbits, hrest, hwf, hwithin⟩ := ih h
        refine ⟨fun t ht => ?_, fun a ha => ?_, fun w => hwf (Memory.write_wf w _ _),
          fun w => hwithin (Memory.write_within w hlt _)⟩
        · cases t with
          | zero =>
            refine ⟨v, b, hlt, hold, rfl, ?_⟩
            rw [Nat.add_zero, hrest _ fun t _ => by omega, Memory.read_write_same]
          | succ t =>
            obtain ⟨w, c, h1, h2, h3, h4⟩ := hbits t (by simpa using ht)
            rw [show i + (t + 1) = i + 1 + t by omega]
            refine ⟨w, c, h1, ?_, by simpa using h3, h4⟩
            rwa [Memory.read_write_ne _ _ (by omega)] at h2
        · rw [hrest a fun t ht => ?_, Memory.read_write_ne]
          · exact ha 0 (by simp)
          · have := ha (t + 1) (by simpa using ht)
            rwa [show i + 1 + t = i + (t + 1) by omega]

theorem writeLsbs_error {size i : Nat} {bs : List Bool} {pix : Memory Byte} {f : Fault}
    (h : writeLsbs size i bs pix = .error f) : ∃ t < bs.length, pix.readAt size (4 * (i + t)) = .error f := by
  induction bs generalizing i pix with
  | nil => cases h
  | cons b bs ih =>
    simp only [writeLsbs, carrier_eq] at h
    split at h
    · next hv => cases h; exact ⟨0, by simp, hv⟩
    · next v hv =>
      split at h
      · next hw =>
        have := (Memory.readAt_eq_ok_iff ..).1 hv
        have := (Memory.writeAt_eq_error_iff ..).1 hw
        omega
      · next mid hmid =>
        obtain ⟨-, rfl⟩ := (Memory.writeAt_eq_ok_iff ..).1 hmid
        obtain ⟨t, ht, he⟩ := ih h
        refine ⟨t + 1, by simpa using ht, ?_⟩
        rw [show i + (t + 1) = i + 1 + t by omega]
        rwa [Memory.readAt, Memory.read_write_ne _ _ (by omega), ← Memory.readAt] at he

/-- The write phase ends when every carrier lies in PIX and was written. -/
theorem writeLsbs_total {size i : Nat} {bs : List Bool} {pix : Memory Byte} (hs : 4 * (i + bs.length) ≤ size)
    (h : ∀ t < bs.length, ∃ v, pix.read (4 * (i + t)) = some v) : ∃ pix', writeLsbs size i bs pix = .ok pix' := by
  cases hr : writeLsbs size i bs pix with
  | ok pix' => exact ⟨pix', rfl⟩
  | error f =>
    obtain ⟨t, ht, he⟩ := writeLsbs_error hr
    obtain ⟨v, hv⟩ := h t ht
    rcases (Memory.readAt_eq_error_iff ..).1 he with ⟨-, hn, -⟩ | ⟨hge, -⟩
    · rw [hv] at hn; cases hn
    · omega

theorem writeLsbs_uninitialised {size i : Nat} {bs : List Bool} {pix : Memory Byte}
    (hs : 4 * (i + bs.length) ≤ size) (h : ∃ t < bs.length, pix.read (4 * (i + t)) = none) :
    writeLsbs size i bs pix = .error .uninitialised := by
  cases hr : writeLsbs size i bs pix with
  | ok pix' =>
    obtain ⟨t, ht, hn⟩ := h
    obtain ⟨v, b, -, hv, -⟩ := (writeLsbs_ok hr).1 t ht
    rw [hn] at hv; cases hv
  | error f =>
    obtain ⟨t, ht, he⟩ := writeLsbs_error hr
    rcases (Memory.readAt_eq_error_iff ..).1 he with ⟨-, -, hf⟩ | ⟨hge, -⟩
    · rw [hf]
    · omega

/-! ## The engine's transition -/

/-- Everything the engine's ENCODE can answer as a next state: one of its three errors, or the embedded payload. -/
theorem engineEncode_next {s t : State} (h : engineEncode s = .next t) :
    (∃ e, (e = .emptyPayload ∨ e = .invalidCharacter ∨ e = .capacityExceeded) ∧ t = raiseError e s) ∨
    (∃ text pix', s.readText = .ok text ∧ s.engine.n.toNat ≠ 0 ∧ (∀ c ∈ text, c.toNat ≤ 0xFF) ∧
      text.length * 8 ≤ 2 ^ 32 - 1 ∧ 32 + text.length * 8 ≤ s.engine.pixelCount ∧
      writeLsbs s.cfg.pixBytes 0 (frame (bytes text)) s.pix = .ok pix' ∧
      t = completeCommand { s with pix := pix', bitLen := BitVec.ofNat 32 (text.length * 8) }) := by
  unfold engineEncode at h
  split at h
  · cases h; exact .inl ⟨_, .inl rfl, rfl⟩
  · next hn =>
    split at h
    · cases h
    · next text htext =>
      split at h
      · cases h; exact .inl ⟨_, .inr (.inl rfl), rfl⟩
      · next hany =>
        split at h
        · cases h; exact .inl ⟨_, .inr (.inr rfl), rfl⟩
        · next hfit =>
          split at h
          · cases h; exact .inl ⟨_, .inr (.inr rfl), rfl⟩
          · next hcap =>
            unfold embedPayload at h
            split at h
            · cases h
            · next pix' hpix =>
              cases h
              have hfit' : lengthFits (bytes text) = true := by simpa using hfit
              rw [lengthFits_iff, length_bytes] at hfit'
              refine .inr ⟨text, pix', htext, hn, ?_, hfit', ?_, hpix, by simp⟩
              · intro c hc
                by_contra hgt
                exact hany (List.any_eq_true.2 ⟨c, hc, by simp; omega⟩)
              · simp at hcap; omega

/-- ENCODE with no text (41_encoder.md R134). -/
theorem engineEncode_empty {s : State} (hn : s.engine.n.toNat = 0) :
    engineEncode s = .next (raiseError .emptyPayload s) := by
  simp [engineEncode, hn]

/-- A fault among the text's words is ENCODE's fault (41_encoder.md R135). -/
theorem engineEncode_textFault {s : State} {f : Fault} (hn : s.engine.n.toNat ≠ 0) (ht : s.readText = .error f) :
    engineEncode s = .fault f := by
  unfold engineEncode
  rw [if_neg hn, ht]

/-- A code point above one byte (41_encoder.md R135). -/
theorem engineEncode_invalid {s : State} {text : List Word} (hn : s.engine.n.toNat ≠ 0) (ht : s.readText = .ok text)
    (hc : ∃ c ∈ text, 0xFF < c.toNat) : engineEncode s = .next (raiseError .invalidCharacter s) := by
  unfold engineEncode
  rw [if_neg hn, ht]
  have : (text.any fun c => decide (0xFF < c.toNat)) = true := by
    obtain ⟨c, h1, h2⟩ := hc
    exact List.any_eq_true.2 ⟨c, h1, by simpa using h2⟩
  simp only [this, if_true]

/-- Past the checks on the text, ENCODE is its two capacity checks and the write phase (41_encoder.md R136 to R138). -/
theorem engineEncode_valid {s : State} {text : List Word} (hn : s.engine.n.toNat ≠ 0) (ht : s.readText = .ok text)
    (hc : ∀ c ∈ text, c.toNat ≤ 0xFF) :
    engineEncode s =
      if 2 ^ 32 - 1 < text.length * 8 ∨ s.engine.pixelCount < 32 + text.length * 8 then
        .next (raiseError .capacityExceeded s)
      else embedPayload (bytes text) s := by
  unfold engineEncode
  rw [if_neg hn, ht]
  have hany : (text.any fun c => decide (0xFF < c.toNat)) = false := by
    rw [List.any_eq_false]
    intro c h
    simpa using hc c h
  simp only [hany, Bool.false_eq_true, if_false, bitLength_eq, length_bytes, prefixBits]
  by_cases hfit : text.length * 8 ≤ 2 ^ 32 - 1
  · have : lengthFits (bytes text) = true := by rwa [lengthFits_iff, length_bytes]
    rw [this]
    have h1 : ¬ 2 ^ 32 - 1 < text.length * 8 := by omega
    simp only [Bool.not_true, Bool.false_eq_true, if_false, h1, false_or]
  · have : lengthFits (bytes text) = false := by
      rw [Bool.eq_false_iff, Ne, lengthFits_iff, length_bytes]; exact hfit
    rw [this]
    have h1 : 2 ^ 32 - 1 < text.length * 8 := by omega
    simp only [Bool.not_false, if_true, h1, true_or]

/-! ## The CMD write -/

/-- Everything a CMD write of ENCODE can answer as a next state (41_encoder.md R133, 43_host_interface.md R195). -/
theorem startEncode_next {s t : State} (h : startEncode s = .next t) :
    s.status.busy = false ∧ 4 * (s.width.toNat * s.height.toNat) ≤ s.cfg.pixBytes ∧
      s.msgLen.toNat ≤ s.cfg.msgWords ∧ t = acceptCommand .encode s := by
  unfold startEncode at h
  split at h
  · cases h
  · next hb =>
    split at h
    · cases h
    · next hg =>
      split at h
      · cases h
      · next hm =>
        cases h
        exact ⟨by simpa using hb, Nat.le_of_not_lt hg, Nat.le_of_not_lt hm, rfl⟩

theorem startEncode_accepts {s : State} (hb : s.status.busy = false)
    (hg : 4 * (s.width.toNat * s.height.toNat) ≤ s.cfg.pixBytes) (hm : s.msgLen.toNat ≤ s.cfg.msgWords) :
    startEncode s = .next (acceptCommand .encode s) := by
  unfold startEncode
  rw [if_neg (by simp [hb]), if_neg (Nat.not_lt.2 hg), if_neg (Nat.not_lt.2 hm)]

/-! ## execEncode, by what is pending -/

theorem execEncode_idle {s : State} (h : s.engine.pending = none) : execEncode s = startEncode s := by
  simp only [execEncode, h]

theorem execEncode_pending {s : State} (h : s.engine.pending = some .encode) : execEncode s = engineEncode s := by
  simp only [execEncode, h]

theorem execEncode_other {s : State} (h : s.engine.pending = some .decode) : execEncode s = .fault .busyWrite := by
  simp only [execEncode, h]

end Sys2Proof.Machine
end

