-- ==== Sys2Proof/Machine/Script.lean ====
section
/-! DEFINITION. The host-script notation and its pseudo-instructions, as inputs (30_encoding.md R95, R96). -/

namespace Sys2Proof.Machine.Script

/-- `WR REG.<name>, v` (R95). -/
def wr (r : Reg) (v : Word) : List Input := [.access (.regWrite r.offset 32 v)]

/-- `RD REG.<name>` (R95). -/
def rd (r : Reg) : List Input := [.access (.regRead r.offset 32)]

/-- `WRB PIX[a], v` (R95). -/
def wrb (a : Nat) (v : Byte) : List Input := [.access (.pixWrite a 8 v)]

/-- `RDB PIX[a]` (R95). -/
def rdb (a : Nat) : List Input := [.access (.pixRead a 8)]

/-- `WRW MSG[j], v` (R95). -/
def wrw (j : Nat) (v : Word) : List Input := [.access (.msgWrite j 32 v)]

/-- `RDW MSG[j]` (R95). -/
def rdw (j : Nat) : List Input := [.access (.msgRead j 32)]

/-- `NOP`, `ENCODE` and `DECODE`: a CMD write of the command's word (R96). -/
def command (i : Instr) : List Input := wr .cmd (encode i)

/-- `POLL` (R96). -/
def poll : List Input := [.poll]

/-- `SETDIM W, H` (R96). -/
def setDim (w h : Word) : List Input := wr .width w ++ wr .height h

/-- `FILLPIX v, a, b`: `b` is excluded (R96). -/
def fillPix (v : Byte) (a b : Nat) : List Input := (List.range (b - a)).flatMap fun k => wrb (a + k) v

/-- The MSG writes of a list of code points, from word `j` on (R96). -/
def wrwFrom : Nat → List Word → List Input
  | _, [] => []
  | j, c :: cs => wrw j c ++ wrwFrom (j + 1) cs

/-- `LOADCODES [c0, c1, ...]` (R96). -/
def loadCodes (cs : List Word) : List Input := wrwFrom 0 cs ++ wr .msgLen (BitVec.ofNat 32 cs.length)

/-- `LOADMSG "s"`: the characters' code points (R96). -/
def loadMsg (text : String) : List Input := loadCodes (text.toList.map fun c => BitVec.ofNat 32 c.toNat)

end Sys2Proof.Machine.Script
end

