-- ==== Sys2Proof/Laws/HostInterface.lean ====
section
/-! SUPPORT. What a host access can do, access by access (43_host_interface.md R191 to R199). -/

namespace Sys2Proof.Machine

/-- A REG access goes through exactly at width 32 and a register's offset. -/
theorem hostReg_next {o w : Nat} {k : Reg → Host.Outcome State Fault Refusal} {t : State}
    (h : hostReg o w k = .next t) : w = 32 ∧ ∃ r, o = Reg.offset r ∧ k r = .next t := by
  unfold hostReg at h
  split at h
  · cases h
  · next hw =>
    split at h
    · cases h
    · next r hr => exact ⟨by simpa using hw, r, (Reg.ofOffset_eq_some_iff o r).1 hr, h⟩

@[simp] theorem hostReg_offset (r : Reg) (k : Reg → Host.Outcome State Fault Refusal) :
    hostReg r.offset 32 k = k r := by
  simp [hostReg]

/-- A PIX or MSG access goes through only while BUSY = 0 and at its space's width. -/
theorem hostMemory_next {native w : Nat} {s t : State} {k : Except Fault State}
    (h : hostMemory native w s k = .next t) : s.status.busy = false ∧ w = native ∧ k = .ok t := by
  unfold hostMemory at h
  split at h
  · cases h
  · next hb =>
    split at h
    · cases h
    · next hw =>
      cases k with
      | error f => cases h
      | ok u => cases h; exact ⟨by simpa using hb, by simpa using hw, rfl⟩

theorem hostMemory_busy {native w : Nat} {s : State} {k : Except Fault State} (h : s.status.busy = true) :
    hostMemory native w s k = .fault .busyAccess := by
  simp [hostMemory, h]

theorem hostMemory_idle {native : Nat} {s : State} {k : Except Fault State} (h : s.status.busy = false) :
    hostMemory native native s k = orFault k := by
  simp [hostMemory, h]

theorem storeUnlessBusy_next {stored s t : State} (h : storeUnlessBusy stored s = .next t) :
    s.status.busy = false ∧ t = stored := by
  unfold storeUnlessBusy at h
  split at h
  · cases h
  · next hb => cases h; exact ⟨by simpa using hb, rfl⟩

/-- A CMD write goes through only while BUSY = 0, and then it runs the command its word decodes to. -/
theorem hostCommand_next {w : Word} {s t : State} (h : hostCommand w s = .next t) :
    s.status.busy = false ∧ ∃ i, decode w = .ok i ∧ exec i s = .next t := by
  unfold hostCommand at h
  split at h
  · cases h
  · next hb =>
    split at h
    · cases h
    · next i hi => exact ⟨by simpa using hb, i, hi, h⟩

/-- Everything a host access that goes through can do, with the access it was (43_host_interface.md R191 to R198). -/
theorem hostAccess_next {a : Access} {s t : State} (h : hostAccess a s = .next t) :
    (∃ v, t = returnToHost v s) ∨
    (t = s ∧ ∃ r v, a = .regWrite (Reg.offset r) 32 v) ∨
    (s.status.busy = false ∧
      ((∃ v, a = .regWrite 0x08 32 v ∧ t = { s with width := v }) ∨
      (∃ v, a = .regWrite 0x0C 32 v ∧ t = { s with height := v }) ∨
      (∃ v, a = .regWrite 0x10 32 v ∧ t = { s with msgLen := v }) ∨
      (∃ p v, p < s.cfg.pixBytes ∧ a = .pixWrite p 8 v ∧ t = { s with pix := s.pix.write p v }) ∨
      (∃ j v, j < s.cfg.msgWords ∧ a = .msgWrite j 32 v ∧ t = { s with msg := s.msg.write j v }) ∨
      (∃ w i, a = .regWrite 0x00 32 w ∧ decode w = .ok i ∧ exec i s = .next t))) := by
  cases a with
  | regRead o w =>
    obtain ⟨-, r, -, hr⟩ := hostReg_next h
    cases hr; exact .inl ⟨_, rfl⟩
  | pixRead p w =>
    obtain ⟨-, -, hk⟩ := hostMemory_next h
    unfold hostPixRead at hk
    split at hk
    · cases hk
    · cases hk; exact .inl ⟨_, rfl⟩
  | msgRead j w =>
    obtain ⟨-, -, hk⟩ := hostMemory_next h
    unfold hostMsgRead at hk
    split at hk
    · cases hk
    · cases hk; exact .inl ⟨_, rfl⟩
  | pixWrite p w v =>
    obtain ⟨hb, rfl, hk⟩ := hostMemory_next h
    unfold hostPixWrite at hk
    split at hk
    · cases hk
    · next m hm =>
      cases hk
      obtain ⟨hp, rfl⟩ := (Memory.writeAt_eq_ok_iff ..).1 hm
      exact .inr (.inr ⟨hb, .inr (.inr (.inr (.inl ⟨p, v, hp, rfl, rfl⟩)))⟩)
  | msgWrite j w v =>
    obtain ⟨hb, rfl, hk⟩ := hostMemory_next h
    unfold hostMsgWrite at hk
    split at hk
    · cases hk
    · next m hm =>
      cases hk
      obtain ⟨hj, rfl⟩ := (Memory.writeAt_eq_ok_iff ..).1 hm
      exact .inr (.inr ⟨hb, .inr (.inr (.inr (.inr (.inl ⟨j, v, hj, rfl, rfl⟩))))⟩)
  | regWrite o w v =>
    obtain ⟨rfl, r, rfl, hr⟩ := hostReg_next h
    cases r with
    | cmd =>
      obtain ⟨hb, i, hi, he⟩ := hostCommand_next hr
      exact .inr (.inr ⟨hb, .inr (.inr (.inr (.inr (.inr ⟨v, i, rfl, hi, he⟩))))⟩)
    | width =>
      obtain ⟨hb, rfl⟩ := storeUnlessBusy_next hr
      exact .inr (.inr ⟨hb, .inl ⟨v, rfl, rfl⟩⟩)
    | height =>
      obtain ⟨hb, rfl⟩ := storeUnlessBusy_next hr
      exact .inr (.inr ⟨hb, .inr (.inl ⟨v, rfl, rfl⟩)⟩)
    | msgLen =>
      obtain ⟨hb, rfl⟩ := storeUnlessBusy_next hr
      exact .inr (.inr ⟨hb, .inr (.inr (.inl ⟨v, rfl, rfl⟩))⟩)
    | status => cases hr; exact .inr (.inl ⟨rfl, .status, v, rfl⟩)
    | bitLen => cases hr; exact .inr (.inl ⟨rfl, .bitLen, v, rfl⟩)
    | reserved18 => cases hr; exact .inr (.inl ⟨rfl, .reserved18, v, rfl⟩)
    | reserved1C => cases hr; exact .inr (.inl ⟨rfl, .reserved1C, v, rfl⟩)

end Sys2Proof.Machine
end

