-- ==== Sys2Proof/Laws/PerInstr.lean ====
section
/-! SUPPORT. What holds of every command as syntax: its word has the fields that 30_encoding.md R81 to R83 give it. -/

namespace Sys2Proof.Laws.EncodeFields

/-- A command's word has RSVD zero and an assigned OP, no other command has its OP, and the command is well formed
(30_encoding.md R81 to R83). -/
def Statement (i : Instr) : Prop :=
  i.wf = true ∧ (cmdFields (encode i)).wf = true ∧ decode (encode i) = .ok i ∧
    ∀ k : Instr, (cmdFields (encode k)).op = (cmdFields (encode i)).op → k = i

theorem nop : Statement .nop := ⟨rfl, by decide, by decide, fun k => by cases k <;> decide⟩

theorem encode : Statement .encode := ⟨rfl, by decide, by decide, fun k => by cases k <;> decide⟩

theorem decode : Statement .decode := ⟨rfl, by decide, by decide, fun k => by cases k <;> decide⟩

end Sys2Proof.Laws.EncodeFields
end

