-- ==== Sys2Proof/Laws/Reset.lean ====
section
/-! SUPPORT. What the reset input changes (70_reset_and_hazards.md R240 to R243). -/

namespace Sys2Proof.Machine

/-- The free red bytes: only carriers of bits `0 .. k - 1` move, and the form and size are kept. -/
theorem freeRedBytes_spec (d k : Nat) (pix : Memory Byte) :
    (∀ a, (∀ i < k, a ≠ 4 * i) → (freeRedBytes d k pix).read a = pix.read a) ∧
    (pix.wf → (freeRedBytes d k pix).wf) ∧
    (∀ size, 4 * k ≤ size + 3 → pix.within size → (freeRedBytes d k pix).within size) := by
  induction k with
  | zero => exact ⟨fun _ _ => rfl, id, fun _ _ => id⟩
  | succ k ih =>
    obtain ⟨hr, hwf, hin⟩ := ih
    refine ⟨fun a ha => ?_, fun h => Memory.write_wf (hwf h) _ _, fun size hs h => ?_⟩
    · rw [freeRedBytes, carrier_eq, Memory.read_write_ne _ _ (ha k (by omega))]
      exact hr a fun i hi => ha i (by omega)
    · exact Memory.write_within (hin size (by omega) h) (by rw [carrier_eq]; omega) _

/-- The free words: only words `0 .. k - 1` move, and the form and size are kept. -/
theorem freeWords_spec (d k : Nat) (msg : Memory Word) :
    (∀ j, k ≤ j → (freeWords d k msg).read j = msg.read j) ∧
    (msg.wf → (freeWords d k msg).wf) ∧
    (∀ size, k ≤ size → msg.within size → (freeWords d k msg).within size) := by
  induction k with
  | zero => exact ⟨fun _ _ => rfl, id, fun _ _ => id⟩
  | succ k ih =>
    obtain ⟨hr, hwf, hin⟩ := ih
    refine ⟨fun j hj => ?_, fun h => Memory.write_wf (hwf h) _ _, fun size hs h => ?_⟩
    · rw [freeWords, Memory.read_write_ne _ _ (by omega)]
      exact hr j (by omega)
    · exact Memory.write_within (hin size (by omega) h) (by omega) _

/-- What abandoning a command leaves of PIX and MSG: their form and size, and every location outside the footprint. -/
theorem abandonCommand_spec (s : State) :
    (s.pix.wf → (abandonCommand s).pix.wf) ∧ (s.msg.wf → (abandonCommand s).msg.wf) ∧
    (s.pix.within s.cfg.pixBytes → (abandonCommand s).pix.within s.cfg.pixBytes) ∧
    (s.msg.within s.cfg.msgWords → (abandonCommand s).msg.within s.cfg.msgWords) ∧
    (∀ a, (s.engine.pending = some .encode → ∀ i < s.engine.encodeFootprint s.cfg, a ≠ 4 * i) →
      (abandonCommand s).pix.read a = s.pix.read a) ∧
    (∀ j, (s.engine.pending = some .decode → s.engine.decodeFootprint s.cfg ≤ j) →
      (abandonCommand s).msg.read j = s.msg.read j) ∧
    (s.engine.pending ≠ some .encode → (abandonCommand s).pix = s.pix) ∧
    (s.engine.pending ≠ some .decode → (abandonCommand s).msg = s.msg) := by
  unfold abandonCommand
  split
  · exact ⟨id, id, id, id, fun _ _ => rfl, fun _ _ => rfl, fun _ => rfl, fun _ => rfl⟩
  · next h =>
    obtain ⟨hr, hwf, hin⟩ := freeRedBytes_spec s.draws (s.engine.encodeFootprint s.cfg) s.pix
    have hf : 4 * s.engine.encodeFootprint s.cfg ≤ s.cfg.pixBytes + 3 := by
      have := Nat.min_le_right (prefixBits + byteBits * s.engine.n.toNat) s.cfg.maxPixels
      simp only [Engine.encodeFootprint]
      simp only [Config.maxPixels, channels] at this ⊢
      omega
    exact ⟨hwf, id, hin _ hf, id, fun a ha => hr a (ha h), fun _ _ => rfl, fun hn => absurd h hn, fun _ => rfl⟩
  · next h =>
    obtain ⟨hr, hwf, hin⟩ := freeWords_spec s.draws (s.engine.decodeFootprint s.cfg) s.msg
    exact ⟨id, hwf, id, hin _ (Nat.min_le_right _ _), fun _ _ => rfl, fun j hj => hr j (hj h), fun _ => rfl,
      fun hn => absurd h hn⟩

end Sys2Proof.Machine
end

