-- ==== Sys2Proof/Laws/Step.lean ====
section
/-! SUPPORT. Said once: everything an engine transition, a host turn and a step can do. -/

namespace Sys2Proof.Machine

/-! ## exec -/

theorem exec_nop (s : State) : exec .nop s = execNop s := rfl
theorem exec_encode (s : State) : exec .encode s = execEncode s := rfl
theorem exec_decode (s : State) : exec .decode s = execDecode s := rfl

theorem execNop_next {s t : State} (h : execNop s = .next t) : s.status.busy = false ∧ t = s := by
  unfold execNop at h
  split at h
  · cases h
  · next hb => cases h; exact ⟨by simpa using hb, rfl⟩

/-- Everything a command can do when nothing is pending: NOP, or an accepted CMD write. -/
theorem exec_idle_next {i : Instr} {s t : State} (hp : s.engine.pending = none) (h : exec i s = .next t) :
    s.status.busy = false ∧
      ((i = .nop ∧ t = s) ∨
      (4 * (s.width.toNat * s.height.toNat) ≤ s.cfg.pixBytes ∧
        ((i = .encode ∧ s.msgLen.toNat ≤ s.cfg.msgWords ∧ t = acceptCommand .encode s) ∨
        (i = .decode ∧ t = acceptCommand .decode s)))) := by
  cases i with
  | nop =>
    obtain ⟨hb, rfl⟩ := execNop_next h
    exact ⟨hb, .inl ⟨rfl, rfl⟩⟩
  | encode =>
    rw [exec_encode, execEncode_idle hp] at h
    obtain ⟨hb, hg, hm, rfl⟩ := startEncode_next h
    exact ⟨hb, .inr ⟨hg, .inl ⟨rfl, hm, rfl⟩⟩⟩
  | decode =>
    rw [exec_decode, execDecode_idle hp] at h
    obtain ⟨hb, hg, rfl⟩ := startDecode_next h
    exact ⟨hb, .inr ⟨hg, .inr ⟨rfl, rfl⟩⟩⟩

/-- Everything the engine can do: an error, an embedded payload, or an extracted payload. -/
theorem exec_pending_next {c : Command} {s t : State} (hp : s.engine.pending = some c)
    (h : exec c.instr s = .next t) :
    (∃ e, t = raiseError e s) ∨
    (c = .encode ∧ ∃ pix' payload, writeLsbs s.cfg.pixBytes 0 (frame payload) s.pix = .ok pix' ∧
      payload.length = s.engine.n.toNat ∧ s.engine.n.toNat ≠ 0 ∧ payload.length * 8 ≤ 2 ^ 32 - 1 ∧
      t = completeCommand { s with pix := pix', bitLen := BitVec.ofNat 32 (payload.length * 8) }) ∨
    (c = .decode ∧ ∃ L payload msg', writeCharacters s.cfg.msgWords 0 payload s.msg = .ok msg' ∧
      t = completeCommand { s with msg := msg', msgLen := BitVec.ofNat 32 (L.toNat / 8), bitLen := L }) := by
  cases c with
  | encode =>
    rw [Command.instr, exec_encode, execEncode_pending hp] at h
    rcases engineEncode_next h with ⟨e, -, rfl⟩ | ⟨text, pix', ht, hn, -, hfit, -, hw, rfl⟩
    · exact .inl ⟨e, rfl⟩
    · have hlen : text.length = s.engine.n.toNat := ((readRange_eq_ok_iff ..).1 ht).1
      exact .inr (.inl ⟨rfl, pix', bytes text, hw, by simpa using hlen, hn, by simpa using hfit, by simp⟩)
  | decode =>
    rw [Command.instr, exec_decode, execDecode_pending hp] at h
    rcases engineDecode_next h with ⟨e, -, rfl⟩ | ⟨L, payload, msg', -, -, -, -, hw, rfl⟩
    · exact .inl ⟨e, rfl⟩
    · exact .inr (.inr ⟨rfl, L, payload, msg', hw, rfl⟩)

/-! ## hostTurn -/

/-- Everything the outside world's move can do. -/
theorem hostTurn_next {s t : State} (h : hostTurn s = .next t) :
    (s.inputs = [] ∧ t = s) ∨
    (∃ a rest, s.inputs = .access a :: rest ∧ hostAccess a (s.withInputs rest) = .next t) ∨
    (∃ rest, s.inputs = .poll :: rest ∧ t = pollOnce rest s) ∨
    (∃ rest, s.inputs = .reset :: rest ∧ t = resetInput (s.withInputs rest)) := by
  unfold hostTurn at h
  split at h
  · next hi => cases h; exact .inl ⟨hi, rfl⟩
  · next a rest hi => exact .inr (.inl ⟨a, rest, hi, h⟩)
  · next rest hi => cases h; exact .inr (.inr (.inl ⟨rest, hi, rfl⟩))
  · next rest hi => cases h; exact .inr (.inr (.inr ⟨rest, hi, rfl⟩))

theorem hostTurn_nil {s : State} (h : s.inputs = []) : hostTurn s = .next s := by simp only [hostTurn, h]

theorem hostTurn_access {s : State} {a : Access} {rest : List Input} (h : s.inputs = .access a :: rest) :
    hostTurn s = hostAccess a (s.withInputs rest) := by simp only [hostTurn, h]

theorem hostTurn_poll {s : State} {rest : List Input} (h : s.inputs = .poll :: rest) :
    hostTurn s = .next (pollOnce rest s) := by simp only [hostTurn, h]

theorem hostTurn_reset {s : State} {rest : List Input} (h : s.inputs = .reset :: rest) :
    hostTurn s = .next (resetInput (s.withInputs rest)) := by simp only [hostTurn, h]

/-! ## step -/

/-- Everything a step can do: the host's turn with nothing pending, the engine's turn, or the host's turn meanwhile. -/
theorem step_next {s t : State} (h : step s = .next t) :
    s.faulted = none ∧
      ((s.engine.pending = none ∧ hostTurn s = .next t) ∨
      (∃ c, s.engine.pending = some c ∧
        ((s.turns = [] ∧ exec c.instr s = .next t) ∨
        (∃ ts, s.turns = .engine :: ts ∧ exec c.instr (s.withTurns ts) = .next t) ∨
        (∃ ts, s.turns = .host :: ts ∧ hostTurn (s.withTurns ts) = .next t)))) := by
  unfold step transition at h
  split at h
  · cases h
  · next hf =>
    refine ⟨hf, ?_⟩
    split at h
    · next hp => exact .inl ⟨hp, h⟩
    · next c hp =>
      refine .inr ⟨c, hp, ?_⟩
      split at h
      · next ht => exact .inl ⟨ht, h⟩
      · next ts ht => exact .inr (.inl ⟨ts, ht, h⟩)
      · next ts ht => exact .inr (.inr ⟨ts, ht, h⟩)

theorem step_faulted {s : State} {f : Fault} (h : s.faulted = some f) : step s = .fault f := by
  simp only [step, transition, h]

theorem step_idle {s : State} (hf : s.faulted = none) (hp : s.engine.pending = none) : step s = hostTurn s := by
  simp only [step, transition, hf, hp]

theorem step_engine_last {s : State} {c : Command} (hf : s.faulted = none) (hp : s.engine.pending = some c)
    (ht : s.turns = []) : step s = exec c.instr s := by
  simp only [step, transition, hf, hp, ht]

theorem step_engine {s : State} {c : Command} {ts : List Turn} (hf : s.faulted = none)
    (hp : s.engine.pending = some c) (ht : s.turns = .engine :: ts) : step s = exec c.instr (s.withTurns ts) := by
  simp only [step, transition, hf, hp, ht]

theorem step_host {s : State} {c : Command} {ts : List Turn} (hf : s.faulted = none)
    (hp : s.engine.pending = some c) (ht : s.turns = .host :: ts) : step s = hostTurn (s.withTurns ts) := by
  simp only [step, transition, hf, hp, ht]

end Sys2Proof.Machine
end

