-- ==== Sys2Proof/Tests/Slice0.lean ====
section
/-! SUPPORT. The model's own tests, each with the place in spec/ its expected result comes from, and for every statement
with hypotheses a witness that meets them all. -/

namespace Sys2Proof.Tests

open Sys2Proof Sys2Proof.Machine Sys2Proof.Spec

/-! ## Helper states: a 40 x 1 image whose red bytes are 0xFF, and the text "A" (95_test_vectors.md V-E2) -/

/-- The state after, if there is one. -/
def after : Host.Outcome State Fault Refusal → Option State
  | .next t => some t
  | .fault _ => none
  | .refused _ => none

/-- The fault, if there is one. -/
def faultOf : Host.Outcome State Fault Refusal → Option Fault
  | .next _ => none
  | .fault f => some f
  | .refused _ => none

theorem next_of_after {o : Host.Outcome State Fault Refusal} (h : (after o).isSome) : ∃ t, o = .next t := by
  cases o with
  | next t => exact ⟨t, rfl⟩
  | fault f => cases h
  | refused r => cases h

theorem fault_of_faultOf {o : Host.Outcome State Fault Refusal} {f : Fault} (h : faultOf o = some f) : o = .fault f := by
  cases o with
  | next t => cases h
  | fault g => cases h; rfl
  | refused r => cases h

/-- A PIX in which only the red bytes of `k` pixels were written. -/
def reds (k : Nat) (f : Nat → Byte) : Memory Byte := (List.range k).map fun i => (4 * i, f i)

/-- Red LSBs that spell the header `h`, other bits 0 (95_test_vectors.md, section 2.3); pixels beyond 31 are 0. -/
def headed (k : Nat) (h : Word) : Memory Byte := reds k fun i => if i < 32 ∧ h.getLsbD (31 - i) then 1 else 0

/-- Idle, the sizes `bytes` and `words`, the dimensions `w` x 1, MSG_LEN = `n`. -/
def idle (bytes words : Nat) (w n : Word) (pix : Memory Byte) (msg : Memory Word) : State :=
  { State.reset with cfg := ⟨bytes, words⟩, width := w, height := 1, msgLen := n, pix := pix, msg := msg }

/-- The same state with the command `c` pending. -/
def busyWith (c : Command) (s : State) : State :=
  { s with status := Status.started, engine := { pending := some c, w := s.width, h := s.height, n := s.msgLen } }

/-- V-E2, before the command. -/
def imageA : State := idle 160 1 40 1 (reds 40 fun _ => 0xFF) [(0, 0x41)]

/-- V-E2, ENCODE pending. -/
def encodeA : State := busyWith .encode imageA

/-- A 40 x 1 image with the header 8 and a payload byte 0, DECODE pending. -/
def decode8 : State := busyWith .decode (idle 160 1 40 7 (headed 40 8) [])

/-- The state after a command that ended with CapacityExceeded (95_test_vectors.md V-H4 to V-H6). -/
def failedA : State := { imageA with status := Status.failed .capacityExceeded }

/-- The next input. -/
def given (i : Input) (s : State) : State := { s with inputs := [i] }

/-- The next input, taken before a pending command completes. -/
def givenFirst (i : Input) (s : State) : State := { s with inputs := [i], turns := [.host] }

/-! ## Checks on what can be written down wrongly: an ill-formed term for each -/

theorem test_refuses_reserved_bits : (CmdFields.mk 0b01 1).rsvdZero = false ∧ (CmdFields.mk 0b01 1).wf = false := by decide
theorem test_refuses_reserved_op : (CmdFields.mk 0b11 0).opAssigned = false ∧ (CmdFields.mk 0b11 0).wf = false := by decide
theorem test_accepts_commands : (CmdFields.mk 0b00 0).wf ∧ (CmdFields.mk 0b01 0).wf ∧ (CmdFields.mk 0b10 0).wf := by decide
/-- 20_memory.md R56. -/
theorem test_refuses_width : (Access.pixRead 0 32).widthOk = false ∧ (Access.regRead 0 8).widthOk = false ∧
    (Access.msgWrite 0 8 0).widthOk = false := by decide
/-- V-H12. -/
theorem test_refuses_offset : (Access.regRead 2 32).alignedOk = false ∧
    (Access.regRead 0x20 32).rangeOk Config.ofPrograms = false := by decide
theorem test_refuses_range : (Access.pixRead 1024 8).rangeOk Config.ofPrograms = false ∧
    (Access.msgRead 256 32).rangeOk Config.ofPrograms = false ∧ (Access.pixRead 1023 8).wf Config.ofPrograms := by decide
/-- 00_scope.md R6, R7. -/
theorem test_refuses_sizes : ¬ (Config.mk 161 100).pixWhole ∧ ¬ (Config.mk 160 0).msgFits ∧ (Config.mk 160 1).wf := by decide
theorem test_every_command_is_wf : ∀ i : Instr, i.wf = true := by intro i; cases i <;> rfl

/-! ## Decoding: words written out from the opcode map (30_encoding.md R82, R93) -/

theorem test_decode_nop : decode 0b00000000000000000000000000000000#32 = .ok .nop := by decide
theorem test_decode_encode : decode 0b00000000000000000000000000000001#32 = .ok .encode := by decide
theorem test_decode_decode : decode 0b00000000000000000000000000000010#32 = .ok .decode := by decide
/-- V-H7, V-H8. -/
theorem test_decode_reserved : decode 0b00000000000000000000000000000011#32 = .error .reservedOp ∧
    decode 0b00000000000000000000000100000001#32 = .error .reservedBits := by decide
theorem test_decode_table_word : decodeTableWord 32 1 = some .encode ∧ decodeTableWord 32 0x101 = none ∧
    decodeTableWord 8 2 = some .decode := by decide

/-! ## Memory, framer -/

/-- PIX is a list of the host's cells. -/
theorem test_pix_is_cells : Memory Byte = List Host.Cell := rfl
theorem test_reset_memory_wf : State.reset.pix.wf ∧ State.reset.msg.wf := by decide
/-- V-F9: the ones of the frame of "Hi". -/
theorem test_frame_hi : (List.range 48).filter (fun i => (frame [0x48, 0x69])[i]?.getD false) =
    [27, 33, 36, 41, 42, 44, 47] := by decide
/-- W4. -/
theorem test_set_lsb : setLsb 0x00 true = 0x01 ∧ setLsb 0xFF false = 0xFE ∧ setLsb 0x80 true = 0x81 ∧
    setLsb 0x81 false = 0x80 := by decide

/-! ## The commands, one step each -/

/-- V-H5. -/
theorem test_nop_keeps_error : (after (step (given (commandInput 0) failedA))).map (·.status.word) = some 0x00000034 := by
  decide
/-- V-E2: pixels 28, 33 and 39 keep 0xFF, the other red bytes become 0xFE. -/
theorem test_encode_a : (after (exec .encode encodeA)).map (fun t => (t.status.word, t.bitLen, t.pix)) =
    some (0x00000002, 8, reds 40 fun i => if i = 28 ∨ i = 33 ∨ i = 39 then 0xFF else 0xFE) := by decide
/-- V-E6: the invalid character is reported before the capacity. -/
theorem test_encode_order :
    (after (exec .encode (busyWith .encode (idle 160 1 0 1 [] [(0, 0x100)])))).map (·.status.word) = some 0x00000024 := by
  decide
/-- V-D9: the image V-E2 leaves spells "A". -/
theorem test_decode_a :
    (after (exec .decode (busyWith .decode (idle 160 1 40 7
      (reds 40 fun i => if i = 28 ∨ i = 33 ∨ i = 39 then 0xFF else 0xFE) [(0, 0x1234)])))).map
      (fun t => (t.status.word, t.msgLen, t.bitLen, t.msg)) = some (0x00000002, 1, 8, [(0, 0x41)]) := by decide
/-- V-D7: the capacity sum does not wrap at 2^32. -/
theorem test_decode_no_wrap :
    (after (exec .decode (busyWith .decode (idle 256 4 64 7 (headed 64 0xFFFFFFF8) [(0, 0x1234)])))).map
      (fun t => (t.status.word, t.msgLen, t.msg)) = some (0x00000034, 7, [(0, 0x1234)]) := by decide
/-- Each command's word runs as the first command after reset (70_reset_and_hazards.md R246, 30_encoding.md R82, R93). -/
theorem test_first_command : (after (step (State.reset.withFetchWord 32 0))).map (·.status.word) = some 0x00000000 ∧
    (after (step (State.reset.withFetchWord 32 1))).map (·.status.word) = some 0x00000001 ∧
    (after (step (State.reset.withFetchWord 32 2))).map (·.status.word) = some 0x00000001 ∧
    faultOf (step (State.reset.withFetchWord 32 3)) = some .reservedCommand := by decide
/-- 30_encoding.md R96. -/
theorem test_script_setdim : Script.setDim 48 1 =
    [.access (.regWrite 0x08 32 48), .access (.regWrite 0x0C 32 1)] := by decide
/-- V-H15: reset while BUSY. -/
theorem test_reset_while_busy : (after (step (givenFirst .reset encodeA))).map
    (fun t => (t.status.word, t.draws, t.msg)) = some (0x00000000, 40, [(0, 0x41)]) := by decide

/-! ## Facts the witnesses share -/

/-- With nothing pending, the next input is the next move. -/
theorem hostMove_given (i : Input) (s : State) (hf : s.faulted = none) (hp : s.engine.pending = none) :
    HostMove (given i s) i { given i s with inputs := [] } := ⟨hf, [], rfl, .inl ⟨hp, rfl⟩⟩

/-- With a command pending, the next input is the next move when the turn is the host's. -/
theorem hostMove_givenFirst (i : Input) (s : State) (hf : s.faulted = none) (hp : s.engine.pending ≠ none) :
    HostMove (givenFirst i s) i { givenFirst i s with inputs := [], turns := [] } :=
  ⟨hf, [], rfl, .inr ⟨hp, [], rfl, rfl⟩⟩

theorem engineMove_now {c : Command} {s : State} (hf : s.faulted = none) (hp : s.engine.pending = some c)
    (ht : s.turns = []) : EngineMove s c s := ⟨hf, hp, .inl ⟨ht, rfl⟩⟩

theorem redWritten_of_isSome {pix : Memory Byte} {k : Nat} (h : ∀ i < k, (pix.read (4 * i)).isSome) : RedWritten pix k :=
  fun i hi => Option.isSome_iff_exists.1 (h i hi)

theorem imageA_inv : imageA.Inv where
  cfg_wf := by decide
  pix_wf := by decide
  pix_within := by decide
  msg_wf := by decide
  msg_within := by decide
  status_legal := .inl rfl
  pending_iff := by decide
  latched := by decide
  geometry := by decide
  message := by decide

theorem encodeA_inv : encodeA.Inv where
  cfg_wf := by decide
  pix_wf := by decide
  pix_within := by decide
  msg_wf := by decide
  msg_within := by decide
  status_legal := .inr (.inl rfl)
  pending_iff := by decide
  latched := by decide
  geometry := by decide
  message := by decide

theorem decode8_inv : decode8.Inv where
  cfg_wf := by decide
  pix_wf := by decide
  pix_within := by decide
  msg_wf := by decide
  msg_within := by decide
  status_legal := .inr (.inl rfl)
  pending_iff := by decide
  latched := by decide
  geometry := by decide
  message := by decide

theorem failedA_inv : failedA.Inv :=
  { imageA_inv with status_legal := .inr (.inr (.inr ⟨.capacityExceeded, rfl⟩)) }

theorem inv_given {s : State} (h : s.Inv) (i : Input) : (given i s).Inv := { h with }

theorem inv_givenFirst {s : State} (h : s.Inv) (i : Input) : (givenFirst i s).Inv := { h with }

theorem encodeA_pending : EncodePending encodeA := ⟨rfl, by decide, by decide⟩
theorem encodeA_holds : HoldsText encodeA [0x41] := ⟨rfl, by decide⟩
theorem encodeA_red : RedWritten encodeA.pix 40 := redWritten_of_isSome (by decide)
theorem decode8_header : headerSum decode8.pix = 8 := by decide
theorem headed_header_zero : headerSum (headed 32 0) = 0 := by decide

/-- ENCODE of `encodeA` succeeds. -/
theorem encodeA_next : ∃ t, exec .encode encodeA = .next t ∧ t.status.done = true := by
  obtain ⟨t, ht⟩ := next_of_after (o := exec .encode encodeA) (by decide)
  have h : (after (exec .encode encodeA)).map (·.status.done) = some true := by decide
  rw [ht] at h
  exact ⟨t, ht, by simpa [after] using h⟩

/-- DECODE of `decode8` succeeds. -/
theorem decode8_next : ∃ t, exec .decode decode8 = .next t ∧ t.status.done = true := by
  obtain ⟨t, ht⟩ := next_of_after (o := exec .decode decode8) (by decide)
  have h : (after (exec .decode decode8)).map (·.status.done) = some true := by decide
  rw [ht] at h
  exact ⟨t, ht, by simpa [after] using h⟩

/-! ## Witnesses: the opcode map, reset, idling, moves -/

theorem witness_ReservedCommandWordFaults :
    ∀ w ∈ [0x00000003#32, 0x00000004#32, 0x00000101#32, 0x80000002#32], ∃ s s',
      HostMove s (commandInput w) s' ∧ s.status.busy = false ∧ (w.extractLsb' 2 30 ≠ 0 ∨ w.extractLsb' 0 2 = 3) := by
  intro w hw
  refine ⟨_, _, hostMove_given _ imageA rfl rfl, rfl, ?_⟩
  simp only [List.mem_cons, List.not_mem_nil, or_false] at hw
  rcases hw with rfl | rfl | rfl | rfl <;> decide

/-- A host's CMD write, the engine's transition of ENCODE and of DECODE. -/
theorem witness_EveryStepKeepsTheBlockInvariant :
    (∃ s t : State, s.Inv ∧ s.engine.pending = none ∧ step s = .next t) ∧
    (∃ s t : State, s.Inv ∧ s.engine.pending = some .encode ∧ step s = .next t) ∧
    (∃ s t : State, s.Inv ∧ s.engine.pending = some .decode ∧ step s = .next t) := by
  refine ⟨⟨given (commandInput 1) imageA, ?_⟩, ⟨encodeA, ?_⟩, ⟨decode8, ?_⟩⟩
  · obtain ⟨t, ht⟩ := next_of_after (o := step (given (commandInput 1) imageA)) (by decide)
    exact ⟨t, inv_given imageA_inv _, rfl, ht⟩
  · obtain ⟨t, ht, -⟩ := encodeA_next
    exact ⟨t, encodeA_inv, rfl, ht⟩
  · obtain ⟨t, ht, -⟩ := decode8_next
    exact ⟨t, decode8_inv, rfl, ht⟩

theorem witness_NoStepChangesTheSizes : ∃ s t : State, step s = .next t ∧ s.cfg = ⟨160, 1⟩ := by
  obtain ⟨t, ht, -⟩ := encodeA_next
  exact ⟨encodeA, t, ht, rfl⟩

theorem witness_IdleBlockKeepsItsState :
    ∃ s : State, s.faulted = none ∧ (s.engine.pending = none ↔ s.status.busy = false) ∧ s.status.busy = false ∧
      s.inputs = [] ∧ s.pix ≠ [] :=
  ⟨imageA, rfl, by decide, rfl, rfl, by decide⟩

theorem witness_StepRunsTheDecodedCommand :
    (∀ i : Instr, ∃ s s', HostMove s (commandInput (encode i)) s' ∧ s.status.busy = false ∧
      decode (encode i) = .ok i) ∧
    (∃ s s', EngineMove s .encode s') ∧ (∃ s s', EngineMove s .decode s') ∧
    (∃ s s', HostMove s (.access (.pixRead 0 8)) s') ∧
    (∃ s : State, s.faulted = none ∧ s.engine.pending = none ∧ s.status.busy = false) :=
  ⟨fun i => ⟨_, _, hostMove_given _ imageA rfl rfl, rfl, decode_encode i⟩,
    ⟨_, _, engineMove_now (s := encodeA) rfl rfl rfl⟩, ⟨_, _, engineMove_now (s := decode8) rfl rfl rfl⟩,
    ⟨_, _, hostMove_given _ imageA rfl rfl⟩, ⟨imageA, rfl, rfl, rfl⟩⟩

theorem witness_FaultMarkIsPermanent :
    (∃ s : State, s.faulted = some .badWidth) ∧ (∃ s : State, step s = .fault .reservedCommand) ∧
    (∃ s t : State, step s = .next t) :=
  ⟨⟨{ imageA with faulted := some .badWidth }, rfl⟩,
    ⟨given (commandInput 3) imageA, fault_of_faultOf (by decide)⟩, ⟨encodeA, next_of_after (by decide)⟩⟩

theorem witness_PendingCommandEndsWithinItsTurns :
    ∃ s : State, s.Inv ∧ s.faulted = none ∧ s.engine.pending ≠ none ∧ s.turns = [.host, .host] :=
  ⟨{ encodeA with turns := [.host, .host] }, { encodeA_inv with }, rfl, by decide, rfl⟩

theorem witness_NopHasNoEffect : (∃ s : State, s.status.busy = false) ∧ ∃ s : State, s.status.busy = true :=
  ⟨⟨imageA, rfl⟩, ⟨encodeA, rfl⟩⟩

/-- Every branch of the handshake, the geometry and the message at the first value outside. -/
theorem witness_CommandWriteIsTheHandshake :
    (∃ s s', HostMove s (commandInput 1) s' ∧ (s.engine.pending = none ↔ s.status.busy = false) ∧ s.status.busy = true) ∧
    (∀ w ∈ [0x00000003#32, 0x80000001#32, 0x00000000#32, 0x00000001#32, 0x00000002#32], ∃ s s',
      HostMove s (commandInput w) s' ∧ (s.engine.pending = none ↔ s.status.busy = false) ∧
        s.cfg.pixBytes = 4 * (s.width.toNat * s.height.toNat) ∧ s.cfg.msgWords = s.msgLen.toNat) ∧
    (∀ w ∈ [0x00000001#32, 0x00000002#32], ∃ s s',
      HostMove s (commandInput w) s' ∧ (s.engine.pending = none ↔ s.status.busy = false) ∧
        s.cfg.pixBytes + 4 = 4 * (s.width.toNat * s.height.toNat)) ∧
    (∃ s s', HostMove s (commandInput 1) s' ∧ (s.engine.pending = none ↔ s.status.busy = false) ∧
      s.cfg.msgWords + 1 = s.msgLen.toNat) :=
  ⟨⟨_, _, hostMove_givenFirst _ encodeA rfl (by decide), by decide, rfl⟩,
    fun _ _ => ⟨_, _, hostMove_given _ imageA rfl rfl, ⟨fun _ => rfl, fun _ => rfl⟩, rfl, rfl⟩,
    fun _ _ => ⟨_, _, hostMove_given _ { imageA with width := 41 } rfl rfl, ⟨fun _ => rfl, fun _ => rfl⟩, rfl⟩,
    ⟨_, _, hostMove_given _ { imageA with msgLen := 2 } rfl rfl, by decide, by decide⟩⟩

/-- Both preconditions at their last value inside. -/
theorem witness_EncodeIsAccepted :
    ∃ s : State, s.engine.pending = none ∧ s.status.busy = false ∧
      4 * (s.width.toNat * s.height.toNat) ≤ s.cfg.pixBytes ∧ s.msgLen.toNat ≤ s.cfg.msgWords ∧
      s.cfg.pixBytes = 160 ∧ s.width = 40 ∧ s.msgLen = 1 :=
  ⟨imageA, rfl, rfl, by decide, by decide, rfl, rfl, rfl⟩

/-- MSG_LEN far above MSG_WORDS does not matter to DECODE. -/
theorem witness_DecodeIsAccepted :
    ∃ s : State, s.engine.pending = none ∧ s.status.busy = false ∧
      4 * (s.width.toNat * s.height.toNat) ≤ s.cfg.pixBytes ∧ s.msgLen = 0xFFFFFFFF :=
  ⟨{ imageA with msgLen := 0xFFFFFFFF }, rfl, rfl, by decide, rfl⟩

theorem witness_BrokenPreconditionsFaultAtTheCommandWrite :
    (∃ s : State, s.engine.pending = none ∧ s.status.busy = false ∧
      s.cfg.pixBytes < 4 * (s.width.toNat * s.height.toNat)) ∧
    (∃ s : State, s.engine.pending = none ∧ s.status.busy = false ∧
      4 * (s.width.toNat * s.height.toNat) ≤ s.cfg.pixBytes ∧ s.cfg.msgWords < s.msgLen.toNat) :=
  ⟨⟨{ imageA with width := 41 }, rfl, rfl, by decide⟩, ⟨{ imageA with msgLen := 2 }, rfl, rfl, by decide, by decide⟩⟩

/-! ## Witnesses: ENCODE -/

/-- The exact capacity boundary, 32 + 8 = 40 pixels. -/
theorem witness_EncodeEmbedsTheText :
    ∃ (s : State) (text : List Word), EncodePending s ∧ HoldsText s text ∧ 0 < text.length ∧
      (∀ c ∈ text, c.toNat ≤ 0xFF) ∧ 8 * text.length ≤ 2 ^ 32 - 1 ∧ 32 + 8 * text.length ≤ pixels s ∧
      RedWritten s.pix (32 + 8 * text.length) ∧ pixels s = 40 :=
  ⟨encodeA, [0x41], encodeA_pending, encodeA_holds, by decide, by simp, by decide, by decide, encodeA_red, by decide⟩

theorem witness_EncodeOfEmptyTextIsEmptyPayload : ∃ s : State, EncodePending s ∧ s.engine.n = 0 ∧ s.pix = [] :=
  ⟨busyWith .encode (idle 160 1 0 0 [] []), ⟨rfl, by decide, by decide⟩, rfl, rfl⟩

/-- The first code point above one byte; and a word never written. -/
theorem witness_EncodeOfInvalidCharacterIsRefused :
    (∃ (s : State) (text : List Word), EncodePending s ∧ s.engine.n ≠ 0 ∧ HoldsText s text ∧ ∃ c ∈ text, 0xFF < c.toNat) ∧
    (∃ s : State, EncodePending s ∧ s.engine.n ≠ 0 ∧ ∃ j < s.engine.n.toNat, s.msg.read j = none) :=
  ⟨⟨busyWith .encode (idle 160 1 40 1 [] [(0, 0x100)]), [0x100], ⟨rfl, by decide, by decide⟩, by decide,
      ⟨rfl, by decide⟩, 0x100, by decide, by decide⟩,
    ⟨busyWith .encode (idle 160 1 40 1 [] []), ⟨rfl, by decide, by decide⟩, by decide, 0, by decide, rfl⟩⟩

/-- A MSG that holds `text` from word `j` on. -/
def holding : Nat → List Word → Memory Word
  | _, [] => []
  | j, c :: cs => (j, c) :: holding (j + 1) cs

theorem read_holding (text : List Word) (k j : Nat) (h : j < text.length) :
    (holding k text).read (k + j) = text[j]? := by
  induction text generalizing k j with
  | nil => cases h
  | cons c cs ih =>
    cases j with
    | zero => simp [holding]
    | succ j =>
      have := ih (k + 1) j (by simpa using h)
      rw [show k + 1 + j = k + (j + 1) by omega] at this
      simpa [holding, Memory.read] using this

/-- The text of V-E16: 2^29 characters, MSG as large. -/
def longText : State :=
  busyWith .encode (idle 0 (2 ^ 29) 0 (BitVec.ofNat 32 (2 ^ 29)) [] (holding 0 (List.replicate (2 ^ 29) 0x41)))

/-- One pixel short (V-E3); and the first bit length that does not fit (V-E16). -/
theorem witness_EncodeBeyondCapacityIsRefused :
    (∃ (s : State) (text : List Word), EncodePending s ∧ HoldsText s text ∧ 0 < text.length ∧
      (∀ c ∈ text, c.toNat ≤ 0xFF) ∧ pixels s < 32 + 8 * text.length ∧ pixels s = 39) ∧
    (∃ (s : State) (text : List Word), EncodePending s ∧ HoldsText s text ∧ 0 < text.length ∧
      (∀ c ∈ text, c.toNat ≤ 0xFF) ∧ 2 ^ 32 - 1 < 8 * text.length) := by
  refine ⟨⟨busyWith .encode (idle 160 1 39 1 [] [(0, 0x41)]), [0x41], ⟨rfl, by decide, by decide⟩, ⟨rfl, by decide⟩,
    by decide, by simp, by decide, by decide⟩, ⟨longText, List.replicate (2 ^ 29) 0x41, ⟨rfl, ?_, ?_⟩, ⟨?_, ?_⟩, ?_, ?_, ?_⟩⟩
  · show 4 * ((0 : Word).toNat * (1 : Word).toNat) ≤ 0
    decide
  · show (BitVec.ofNat 32 (2 ^ 29)).toNat ≤ 2 ^ 29
    rw [BitVec.toNat_ofNat]; exact Nat.mod_le _ _
  · rw [List.length_replicate]
    show _ = (BitVec.ofNat 32 (2 ^ 29)).toNat
    rw [BitVec.toNat_ofNat]; norm_num
  · intro j hj
    have := read_holding (List.replicate (2 ^ 29) 0x41) 0 j hj
    rwa [Nat.zero_add] at this
  · rw [List.length_replicate]; norm_num
  · intro c hc
    rw [List.eq_of_mem_replicate hc]; decide
  · rw [List.length_replicate]; norm_num

/-- Only the last pixel of the frame was never written. -/
theorem witness_EncodeOverUnwrittenPixelFaults :
    ∃ (s : State) (text : List Word), EncodePending s ∧ HoldsText s text ∧ 0 < text.length ∧
      (∀ c ∈ text, c.toNat ≤ 0xFF) ∧ 8 * text.length ≤ 2 ^ 32 - 1 ∧ 32 + 8 * text.length ≤ pixels s ∧
      ∃ i < 32 + 8 * text.length, s.pix.read (4 * i) = none :=
  ⟨busyWith .encode (idle 160 1 40 1 (reds 39 fun _ => 0) [(0, 0x41)]), [0x41], ⟨rfl, by decide, by decide⟩,
    ⟨rfl, by decide⟩, by decide, by simp, by decide, by decide, 39, by decide, by decide⟩

theorem witness_EncodeTouchesOnlyRedLsbsOfItsFrame :
    ∃ s t : State, s.engine.pending = some .encode ∧ exec .encode s = .next t ∧ t.status.done = true := by
  obtain ⟨t, ht, hd⟩ := encodeA_next
  exact ⟨encodeA, t, rfl, ht, hd⟩

/-- Two states that differ in a green byte, in MSG_LEN and in BIT_LEN. -/
theorem witness_EncodeIsDeterminedByItsFootprintAndIdempotent :
    (∃ s₁ s₂ t₁ : State, s₁.engine.pending = some .encode ∧ s₂.engine = s₁.engine ∧ s₂.cfg = s₁.cfg ∧
      (∀ j < s₁.engine.n.toNat, s₂.msg.read j = s₁.msg.read j) ∧
      (∀ i < 32 + 8 * s₁.engine.n.toNat, s₂.pix.read (4 * i) = s₁.pix.read (4 * i)) ∧
      exec .encode s₁ = .next t₁ ∧ s₂.pix ≠ s₁.pix ∧ s₂.bitLen ≠ s₁.bitLen) ∧
    (∃ s t : State, s.Inv ∧ s.engine.pending = some .encode ∧ exec .encode s = .next t ∧ t.status.done = true) := by
  obtain ⟨t, ht, hd⟩ := encodeA_next
  exact ⟨⟨encodeA, { encodeA with pix := encodeA.pix.write 1 7, bitLen := 9 }, t, rfl, rfl, rfl, by decide, by decide, ht,
    by decide, by decide⟩, ⟨encodeA, t, encodeA_inv, rfl, ht, hd⟩⟩

/-! ## Witnesses: DECODE -/

theorem decode8_pending : DecodePending decode8 := ⟨rfl, by decide⟩

/-- The exact capacity boundary, 32 + 8 = 40 pixels. -/
theorem witness_DecodeExtractsTheText :
    ∃ s : State, DecodePending s ∧ s.cfg.wf ∧ 32 ≤ pixels s ∧ headerSum s.pix % 8 = 0 ∧
      32 + headerSum s.pix ≤ pixels s ∧ RedWritten s.pix (32 + headerSum s.pix) ∧ headerSum s.pix = 8 ∧ pixels s = 40 := by
  refine ⟨decode8, decode8_pending, by decide, by decide, ?_, ?_, ?_, decode8_header, by decide⟩ <;>
    rw [decode8_header]
  · decide
  · exact redWritten_of_isSome (by decide)

theorem witness_DecodeOfTooFewPixelsIsTruncatedHeader : ∃ s : State, DecodePending s ∧ pixels s < 32 ∧ pixels s = 31 :=
  ⟨busyWith .decode (idle 160 1 31 7 [] []), ⟨rfl, by decide⟩, by decide, by decide⟩

/-- The header 1 and the header 0xFFFFFFFF, in the smallest image that has a header. -/
theorem witness_DecodeOfUnalignedHeaderIsMalformedLength :
    ∀ h ∈ [0x00000001#32, 0xFFFFFFFF#32], ∃ s : State, DecodePending s ∧ 32 ≤ pixels s ∧ RedWritten s.pix 32 ∧
      headerSum s.pix % 8 ≠ 0 ∧ pixels s = 32 := by
  intro h hh
  refine ⟨busyWith .decode (idle 160 1 32 7 (headed 32 h) []), ⟨rfl, ?_⟩, ?_, redWritten_of_isSome ?_, ?_, ?_⟩ <;>
    (simp only [List.mem_cons, List.not_mem_nil, or_false] at hh; rcases hh with rfl | rfl <;> decide)

/-- One pixel short (header 8, 39 pixels); and the header whose sum needs 33 bits (V-D7). -/
theorem witness_DecodeBeyondCapacityIsRefused :
    (∃ s : State, DecodePending s ∧ 32 ≤ pixels s ∧ RedWritten s.pix 32 ∧ headerSum s.pix % 8 = 0 ∧
      pixels s < 32 + headerSum s.pix ∧ pixels s = 39) ∧
    (∃ s : State, DecodePending s ∧ 32 ≤ pixels s ∧ RedWritten s.pix 32 ∧ headerSum s.pix % 8 = 0 ∧
      pixels s < 32 + headerSum s.pix ∧ headerSum s.pix = 0xFFFFFFF8) :=
  ⟨⟨busyWith .decode (idle 160 1 39 7 (headed 39 8) []), ⟨rfl, by decide⟩, by decide, redWritten_of_isSome (by decide),
      by decide, by decide, by decide⟩,
    ⟨busyWith .decode (idle 256 4 64 7 (headed 64 0xFFFFFFF8) []), ⟨rfl, by decide⟩, by decide,
      redWritten_of_isSome (by decide), by decide, by decide, by decide⟩⟩

/-- The last pixel of the header, and the last pixel of the payload, were never written. -/
theorem witness_DecodeOfUnwrittenPixelFaults :
    (∃ s : State, DecodePending s ∧ 32 ≤ pixels s ∧ ∃ i < 32, s.pix.read (4 * i) = none) ∧
    (∃ s : State, DecodePending s ∧ 32 ≤ pixels s ∧ RedWritten s.pix 32 ∧ headerSum s.pix % 8 = 0 ∧
      32 + headerSum s.pix ≤ pixels s ∧ ∃ i < 32 + headerSum s.pix, s.pix.read (4 * i) = none) :=
  ⟨⟨busyWith .decode (idle 160 1 40 7 (headed 31 0) []), ⟨rfl, by decide⟩, by decide, 31, by decide, by decide⟩,
    ⟨busyWith .decode (idle 160 1 40 7 (headed 39 8) []), ⟨rfl, by decide⟩, by decide, redWritten_of_isSome (by decide),
      by decide, by decide, 39, by decide, by decide⟩⟩

theorem witness_ZeroHeaderDecodesToTheEmptyText :
    (∃ s : State, DecodePending s ∧ 32 ≤ pixels s ∧ RedWritten s.pix 32 ∧ (∀ i < 32, redBit s.pix i = false) ∧
      pixels s = 32) ∧
    (∃ s t : State, s.engine.pending = some .encode ∧ exec .encode s = .next t ∧ t.status.done = true) :=
  ⟨⟨busyWith .decode (idle 160 1 32 7 (headed 32 0) []), ⟨rfl, by decide⟩, by decide, redWritten_of_isSome (by decide),
      by decide, by decide⟩, witness_EncodeTouchesOnlyRedLsbsOfItsFrame⟩

/-- Two states that differ in MSG, in the latched n and in a red byte beyond the ones read; and two that fault. -/
theorem witness_DecodeReadsOnlyItsRedBytes :
    (∃ s₁ s₂ t₁ : State, s₁.engine.pending = some .decode ∧ s₂.engine.pending = some .decode ∧
      s₂.engine.w = s₁.engine.w ∧ s₂.engine.h = s₁.engine.h ∧ s₂.cfg = s₁.cfg ∧
      (∀ i < decodeReads s₁, s₂.pix.read (4 * i) = s₁.pix.read (4 * i)) ∧ exec .decode s₁ = .next t₁ ∧
      t₁.status.done = true ∧ s₂.pix ≠ s₁.pix ∧ s₂.msg ≠ s₁.msg ∧ s₂.engine.n ≠ s₁.engine.n) ∧
    (∃ s₁ s₂ : State, s₁.engine.pending = some .decode ∧ s₂.engine.pending = some .decode ∧
      s₂.engine.w = s₁.engine.w ∧ s₂.engine.h = s₁.engine.h ∧ s₂.cfg = s₁.cfg ∧
      (∀ i < decodeReads s₁, s₂.pix.read (4 * i) = s₁.pix.read (4 * i)) ∧ exec .decode s₁ = .fault .uninitialised) := by
  obtain ⟨t, ht, hd⟩ := decode8_next
  refine ⟨⟨decode8, busyWith .decode (idle 160 1 40 9 (decode8.pix.write 1 7) [(0, 3)]), t, rfl, rfl, rfl, rfl, rfl, ?_,
    ht, hd, by decide, by decide, by decide⟩,
    ⟨busyWith .decode (idle 160 1 40 7 (headed 31 0) []), busyWith .decode (idle 160 1 40 7 (headed 31 0) []), rfl, rfl,
      rfl, rfl, rfl, fun _ _ => rfl, fault_of_faultOf (by decide)⟩⟩
  have h : decodeReads decode8 = 40 := by
    unfold decodeReads
    rw [decode8_header]
    decide
  rw [h]
  decide

/-! ## Witnesses: both commands -/

/-- A text that exactly fits, and the text in MSG overwritten between the commands. -/
theorem witness_DecodeAfterEncodeGivesTheTextBack :
    ∃ (s : State) (text : List Word) (scrub : Memory Word), s.Inv ∧ s.engine.pending = none ∧
      4 * (s.width.toNat * s.height.toNat) ≤ s.cfg.pixBytes ∧ s.msgLen.toNat ≤ s.cfg.msgWords ∧
      text.length = s.msgLen.toNat ∧ (∀ j < text.length, s.msg.read j = text[j]?) ∧ 0 < text.length ∧
      (∀ c ∈ text, c.toNat ≤ 0xFF) ∧ 32 + 8 * text.length ≤ s.width.toNat * s.height.toNat ∧
      8 * text.length ≤ 2 ^ 32 - 1 ∧ RedWritten s.pix (32 + 8 * text.length) ∧ scrub ≠ s.msg :=
  ⟨imageA, [0x41], [(0, 0)], imageA_inv, rfl, by decide, by decide, rfl, by decide, by decide, by simp, by decide,
    by decide, encodeA_red, by decide⟩

/-- Another image with the same red bytes, for a next state of each command and for a fault. -/
theorem witness_CommandsIgnoreGreenBlueAndAlpha :
    (∃ (s t : State) (pix : Memory Byte), s.engine.pending = some .encode ∧ (∀ a, a % 4 = 0 → pix.read a = s.pix.read a) ∧
      exec .encode s = .next t ∧ t.status.done = true ∧ pix.read 1 ≠ s.pix.read 1) ∧
    (∃ (s t : State) (pix : Memory Byte), s.engine.pending = some .decode ∧ (∀ a, a % 4 = 0 → pix.read a = s.pix.read a) ∧
      exec .decode s = .next t ∧ t.status.done = true ∧ pix.read 1 ≠ s.pix.read 1) ∧
    (∃ (s : State) (pix : Memory Byte), s.engine.pending = some .encode ∧ (∀ a, a % 4 = 0 → pix.read a = s.pix.read a) ∧
      exec .encode s = .fault .uninitialised) := by
  obtain ⟨t, ht, hd⟩ := encodeA_next
  obtain ⟨u, hu, he⟩ := decode8_next
  refine ⟨⟨encodeA, t, encodeA.pix.write 1 7, rfl, fun a ha => ?_, ht, hd, by decide⟩,
    ⟨decode8, u, decode8.pix.write 1 7, rfl, fun a ha => ?_, hu, he, by decide⟩,
    ⟨busyWith .encode (idle 160 1 40 1 [] [(0, 0x41)]), [(1, 7)], rfl, fun a ha => ?_, fault_of_faultOf (by decide)⟩⟩
  · rw [Memory.read_write_ne _ _ (by omega)]
  · rw [Memory.read_write_ne _ _ (by omega)]
  · show (if a = 1 then _ else _) = _
    rw [if_neg (by omega)]; rfl

/-- ENCODE of no text ends with an error, and so does DECODE of no image. -/
theorem encode_fails : ∃ t, exec .encode (busyWith .encode (idle 160 1 40 0 [] [])) = .next t ∧ t.status.err = true := by
  exact ⟨_, rfl, by decide⟩

theorem decode_fails : ∃ t, exec .decode (busyWith .decode (idle 160 1 31 0 [] [])) = .next t ∧ t.status.err = true := by
  exact ⟨_, rfl, by decide⟩

theorem witness_FailedCommandWritesOnlyStatus :
    (∃ s t : State, s.engine.pending = some .encode ∧ exec .encode s = .next t ∧ t.status.err = true) ∧
    (∃ s t : State, s.engine.pending = some .decode ∧ exec .decode s = .next t ∧ t.status.err = true) := by
  obtain ⟨t, ht, he⟩ := encode_fails
  obtain ⟨u, hu, hf⟩ := decode_fails
  exact ⟨⟨_, t, rfl, ht, he⟩, ⟨_, u, rfl, hu, hf⟩⟩

/-- Each command with an error and without. -/
theorem witness_EachCommandRaisesItsOwnErrorCodes :
    (∃ s t : State, s.engine.pending = some .encode ∧ exec .encode s = .next t ∧ t.status.err = true) ∧
    (∃ s t : State, s.engine.pending = some .encode ∧ exec .encode s = .next t ∧ t.status.done = true) ∧
    (∃ s t : State, s.engine.pending = some .decode ∧ exec .decode s = .next t ∧ t.status.err = true) ∧
    (∃ s t : State, s.engine.pending = some .decode ∧ exec .decode s = .next t ∧ t.status.done = true) := by
  obtain ⟨t, ht, hd⟩ := decode8_next
  exact ⟨witness_FailedCommandWritesOnlyStatus.1, witness_EncodeTouchesOnlyRedLsbsOfItsFrame,
    witness_FailedCommandWritesOnlyStatus.2, ⟨decode8, t, rfl, ht, hd⟩⟩

theorem witness_EngineTransitionEndsTheCommand :
    (∃ s t : State, s.engine.pending = some .encode ∧ exec Command.encode.instr s = .next t) ∧
    (∃ s t : State, s.engine.pending = some .decode ∧ exec Command.decode.instr s = .next t) := by
  obtain ⟨t, ht, -⟩ := encodeA_next
  obtain ⟨u, hu, -⟩ := decode8_next
  exact ⟨⟨encodeA, t, rfl, ht⟩, ⟨decode8, u, rfl, hu⟩⟩

/-- An image none of whose bytes was written. -/
theorem witness_EngineFaultsOnlyOnUnwrittenLocations :
    (∃ (s : State) (f : Fault), s.Inv ∧ s.engine.pending = some .encode ∧ exec Command.encode.instr s = .fault f) ∧
    (∃ (s : State) (f : Fault), s.Inv ∧ s.engine.pending = some .decode ∧ exec Command.decode.instr s = .fault f) :=
  ⟨⟨{ encodeA with pix := [] }, .uninitialised, { encodeA_inv with pix_wf := by decide, pix_within := by decide }, rfl,
      fault_of_faultOf (by decide)⟩,
    ⟨{ decode8 with pix := [] }, .uninitialised, { decode8_inv with pix_wf := by decide, pix_within := by decide }, rfl,
      fault_of_faultOf (by decide)⟩⟩

/-- After an error: NOP, an accepted command, and a reset. -/
theorem witness_ErrorStaysUntilTheNextCommandOrReset :
    ∀ i ∈ [commandInput 0, commandInput 1, commandInput 2, .poll, .reset, .access (.regWrite 0x04 32 0)],
      ∃ s t : State, s.Inv ∧ s.status.err = true ∧ step s = .next t ∧ s.inputs = [i] := by
  intro i hi
  have hn : ∃ t, step (given i failedA) = .next t := by
    simp only [List.mem_cons, List.not_mem_nil, or_false] at hi
    rcases hi with rfl | rfl | rfl | rfl | rfl | rfl <;> exact next_of_after (by decide)
  obtain ⟨t, ht⟩ := hn
  exact ⟨_, t, inv_given failedA_inv i, rfl, ht, rfl⟩

/-! ## Witnesses: STATUS -/

/-- A state with each of the kinds of STATUS word. -/
theorem witness_StatusReadsAsOneOfTheListedWords :
    (∃ s : State, s.Inv ∧ s.status.word = 0x00000000) ∧ (∃ s : State, s.Inv ∧ s.status.word = 0x00000001) ∧
    (∃ s : State, s.Inv ∧ s.status.word = 0x00000002) ∧ ∃ s : State, s.Inv ∧ s.status.word = 0x00000034 :=
  ⟨⟨imageA, imageA_inv, by decide⟩, ⟨encodeA, encodeA_inv, by decide⟩,
    ⟨{ imageA with status := Status.succeeded }, { imageA_inv with status_legal := .inr (.inr (.inl rfl)) }, by decide⟩,
    ⟨failedA, failedA_inv, by decide⟩⟩

theorem witness_StatusFlagsExcludeEachOther :
    (∃ s : State, s.Inv ∧ s.status.busy = true) ∧ ∃ s : State, s.Inv ∧ s.status.err = true :=
  ⟨⟨encodeA, encodeA_inv, rfl⟩, ⟨failedA, failedA_inv, rfl⟩⟩

/-! ## Witnesses: the host's accesses -/

/-- Any input can be the next move, of an idle block and of a busy one. -/
theorem hostMove_exists (i : Input) : (∃ s s', HostMove s i s' ∧ s.status.busy = false) ∧
    ∃ s s', HostMove s i s' ∧ s.status.busy = true :=
  ⟨⟨_, _, hostMove_given i imageA rfl rfl, rfl⟩, ⟨_, _, hostMove_givenFirst i encodeA rfl (by decide), rfl⟩⟩

/-- Each of the eight offsets, idle and busy. -/
theorem witness_RegisterReadsReturnTheRegister :
    ∀ o ∈ [0x00, 0x04, 0x08, 0x0C, 0x10, 0x14, 0x18, 0x1C],
      (∃ s s', HostMove s (.access (.regRead o 32)) s' ∧ s.status.busy = false) ∧
      ∃ s s', HostMove s (.access (.regRead o 32)) s' ∧ s.status.busy = true :=
  fun _ _ => hostMove_exists _

/-- Each of the three offsets, idle and busy, the least and the largest value. -/
theorem witness_OperandRegisterWritesStoreTheValue :
    ∀ o ∈ [0x08, 0x0C, 0x10], ∀ v ∈ [0x00000000#32, 0xFFFFFFFF#32],
      (∃ s s', HostMove s (.access (.regWrite o 32 v)) s' ∧ s.status.busy = false) ∧
      ∃ s s', HostMove s (.access (.regWrite o 32 v)) s' ∧ s.status.busy = true :=
  fun _ _ _ _ => hostMove_exists _

theorem witness_WritesToReadOnlyRegistersAreIgnored :
    ∀ o ∈ [0x04, 0x14, 0x18, 0x1C],
      (∃ s s', HostMove s (.access (.regWrite o 32 0xFFFFFFFF)) s' ∧ s.status.busy = false) ∧
      ∃ s s', HostMove s (.access (.regWrite o 32 0xFFFFFFFF)) s' ∧ s.status.busy = true :=
  fun _ _ => hostMove_exists _

/-- Busy; the last byte inside and the first outside; a byte written and one not. -/
theorem witness_PixAccessesReadAndWriteOneByte :
    (∃ s s', HostMove s (.access (.pixWrite 0 8 7)) s' ∧ s.status.busy = true) ∧
    (∃ s s', HostMove s (.access (.pixWrite 160 8 7)) s' ∧ s.status.busy = false ∧ s.cfg.pixBytes = 160) ∧
    (∃ s s', HostMove s (.access (.pixWrite 159 8 7)) s' ∧ s.status.busy = false ∧ s.cfg.pixBytes = 160) ∧
    (∃ s s', HostMove s (.access (.pixRead 0 8)) s' ∧ s.status.busy = true) ∧
    (∃ s s', HostMove s (.access (.pixRead 160 8)) s' ∧ s.status.busy = false ∧ s.cfg.pixBytes = 160) ∧
    (∃ s s', HostMove s (.access (.pixRead 159 8)) s' ∧ s.status.busy = false ∧ s.cfg.pixBytes = 160 ∧
      s.pix.read 159 = none) ∧
    (∃ s s', HostMove s (.access (.pixRead 156 8)) s' ∧ s.status.busy = false ∧ s.cfg.pixBytes = 160 ∧
      s.pix.read 156 = some 0xFF) :=
  ⟨(hostMove_exists _).2, ⟨_, _, hostMove_given _ imageA rfl rfl, rfl, rfl⟩,
    ⟨_, _, hostMove_given _ imageA rfl rfl, rfl, rfl⟩, (hostMove_exists _).2,
    ⟨_, _, hostMove_given _ imageA rfl rfl, rfl, rfl⟩, ⟨_, _, hostMove_given _ imageA rfl rfl, rfl, rfl, by decide⟩,
    ⟨_, _, hostMove_given _ imageA rfl rfl, rfl, rfl, by decide⟩⟩

/-- Busy; the last word inside and the first outside; a word written and one not; a value above one byte. -/
theorem witness_MsgAccessesReadAndWriteOneWord :
    (∃ s s', HostMove s (.access (.msgWrite 0 32 7)) s' ∧ s.status.busy = true) ∧
    (∃ s s', HostMove s (.access (.msgWrite 1 32 7)) s' ∧ s.status.busy = false ∧ s.cfg.msgWords = 1) ∧
    (∃ s s', HostMove s (.access (.msgWrite 0 32 0xFFFFFFFF)) s' ∧ s.status.busy = false ∧ s.cfg.msgWords = 1) ∧
    (∃ s s', HostMove s (.access (.msgRead 0 32)) s' ∧ s.status.busy = true) ∧
    (∃ s s', HostMove s (.access (.msgRead 1 32)) s' ∧ s.status.busy = false ∧ s.cfg.msgWords = 1) ∧
    (∃ s s', HostMove s (.access (.msgRead 0 32)) s' ∧ s.status.busy = false ∧ s.cfg.msgWords = 1 ∧
      s.msg.read 0 = none) ∧
    (∃ s s', HostMove s (.access (.msgRead 0 32)) s' ∧ s.status.busy = false ∧ s.cfg.msgWords = 1 ∧
      s.msg.read 0 = some 0x41) :=
  ⟨(hostMove_exists _).2, ⟨_, _, hostMove_given _ imageA rfl rfl, rfl, rfl⟩,
    ⟨_, _, hostMove_given _ imageA rfl rfl, rfl, rfl⟩, (hostMove_exists _).2,
    ⟨_, _, hostMove_given _ imageA rfl rfl, rfl, rfl⟩,
    ⟨_, _, hostMove_given _ { imageA with msg := [] } rfl rfl, rfl, rfl, rfl⟩,
    ⟨_, _, hostMove_given _ imageA rfl rfl, rfl, rfl, by decide⟩⟩

/-- A wrong width; an offset off a multiple of 4, the first offset and the first location outside; both. -/
theorem witness_IllFormedAccessesFault :
    (∃ s s' a, HostMove s (.access a) s' ∧ s.status.busy = false ∧ a.widthOk = false ∧
      (a.alignedOk && a.rangeOk s.cfg) = true) ∧
    (∀ a ∈ [.regRead 0x02 32, .regRead 0x20 32, .pixRead 160 8, .msgWrite 1 32 0], ∃ s s',
      HostMove s (.access a) s' ∧ s.status.busy = false ∧ a.widthOk = true ∧
      (a.alignedOk && a.rangeOk s.cfg) = false) ∧
    (∃ s s' a, HostMove s (.access a) s' ∧ s.status.busy = false ∧ a.widthOk = false ∧
      (a.alignedOk && a.rangeOk s.cfg) = false) := by
  refine ⟨⟨_, _, .pixRead 159 16, hostMove_given _ imageA rfl rfl, rfl, by decide, by decide⟩, fun a ha => ?_,
    ⟨_, _, .regRead 0x1D 8, hostMove_given _ imageA rfl rfl, rfl, by decide, by decide⟩⟩
  refine ⟨_, _, hostMove_given _ imageA rfl rfl, rfl, ?_⟩
  simp only [List.mem_cons, List.not_mem_nil, or_false] at ha
  rcases ha with rfl | rfl | rfl | rfl <;> decide

/-- Every kind of access as the next move of a busy block. -/
theorem witness_BusyRuleForEveryAccess :
    (∀ o ∈ [0x00, 0x04, 0x08, 0x0C, 0x10, 0x14, 0x18, 0x1C],
      (∃ s s', HostMove s (.access (.regWrite o 32 1)) s' ∧ s.status.busy = true) ∧
      ∃ s s', HostMove s (.access (.regRead o 32)) s' ∧ s.status.busy = true) ∧
    (∃ s s', HostMove s (.access (.pixWrite 0 8 1)) s' ∧ s.status.busy = true) ∧
    (∃ s s', HostMove s (.access (.pixRead 0 8)) s' ∧ s.status.busy = true) ∧
    (∃ s s', HostMove s (.access (.msgWrite 0 32 1)) s' ∧ s.status.busy = true) ∧
    (∃ s s', HostMove s (.access (.msgRead 0 32)) s' ∧ s.status.busy = true) :=
  ⟨fun _ _ => ⟨(hostMove_exists _).2, (hostMove_exists _).2⟩, (hostMove_exists _).2, (hostMove_exists _).2,
    (hostMove_exists _).2, (hostMove_exists _).2⟩

theorem witness_PollReadsStatusUntilNotBusy :
    (∃ s s', HostMove s .poll s' ∧ s.status.busy = false) ∧ ∃ s s', HostMove s .poll s' ∧ s.status.busy = true :=
  hostMove_exists _

/-- A read and an ignored write that go through while a command is pending. -/
theorem witness_HostCannotDisturbAPendingCommand :
    ∀ a ∈ [.regRead 0x04 32, .regWrite 0x14 32 7], ∃ s s' t : State, s.Inv ∧ s.engine.pending ≠ none ∧
      HostMove s (.access a) s' ∧ step s = .next t := by
  intro a ha
  have hn : ∃ t, step (givenFirst (.access a) encodeA) = .next t := by
    simp only [List.mem_cons, List.not_mem_nil, or_false] at ha
    rcases ha with rfl | rfl <;> exact next_of_after (by decide)
  obtain ⟨t, ht⟩ := hn
  exact ⟨_, _, t, inv_givenFirst encodeA_inv _, (fun h => nomatch h), hostMove_givenFirst _ encodeA rfl (by decide), ht⟩

/-- A host write of each register that changes it, and a reset that changes both. -/
theorem witness_OnlyTheHostChangesWidthAndHeight :
    (∃ s t : State, step s = .next t ∧ t.width ≠ s.width ∧ t.height = s.height) ∧
    (∃ s t : State, step s = .next t ∧ t.height ≠ s.height ∧ t.width = s.width) ∧
    (∃ s t : State, step s = .next t ∧ t.width ≠ s.width ∧ t.height ≠ s.height) :=
  ⟨⟨given (.access (.regWrite 0x08 32 7)) imageA, _, rfl, by decide, by decide⟩,
    ⟨given (.access (.regWrite 0x0C 32 7)) imageA, _, rfl, by decide, by decide⟩,
    ⟨given .reset imageA, _, rfl, by decide, by decide⟩⟩

/-- A successful ENCODE and DECODE, a reset, and a host write of MSG_LEN. -/
theorem witness_WhatChangesMsgLenAndBitLen :
    (∃ s t : State, s.Inv ∧ step s = .next t ∧ t.bitLen ≠ s.bitLen ∧ t.status.done = true) ∧
    (∃ s t : State, s.Inv ∧ step s = .next t ∧ t.msgLen ≠ s.msgLen ∧ s.inputs = []) ∧
    (∃ s t : State, s.Inv ∧ step s = .next t ∧ t.msgLen ≠ s.msgLen ∧ s.inputs ≠ []) := by
  obtain ⟨t, ht, hd⟩ := encodeA_next
  obtain ⟨u, hu, he⟩ := decode8_next
  have h1 : (after (exec .encode encodeA)).map (·.bitLen) = some 8 := by decide
  have h2 : (after (exec .decode decode8)).map (·.msgLen) = some 1 := by decide
  rw [ht] at h1
  rw [hu] at h2
  refine ⟨⟨encodeA, t, encodeA_inv, ht, ?_, hd⟩, ⟨decode8, u, decode8_inv, hu, ?_, rfl⟩,
    ⟨given (.access (.regWrite 0x10 32 7)) imageA, _, inv_given imageA_inv _, rfl, by decide, by decide⟩⟩
  · rw [show t.bitLen = 8 by simpa [after] using h1]; decide
  · rw [show u.msgLen = 1 by simpa [after] using h2]; decide

theorem witness_OnlyTheHostChangesGreenBlueAndAlpha :
    ∃ (s t : State) (a : Nat), step s = .next t ∧ a % 4 ≠ 0 ∧ t.pix.read a ≠ s.pix.read a :=
  ⟨given (.access (.pixWrite 1 8 7)) imageA, _, 1, rfl, by decide, by decide⟩

/-- A next state and a fault of an idle block, with other operands latched. -/
theorem witness_LatchedOperandsOfAnIdleEngineAreHidden :
    (∃ (s t : State) (e : Engine), s.engine.pending = none ∧ e.pending = none ∧ e ≠ s.engine ∧ step s = .next t) ∧
    (∃ (s : State) (e : Engine), s.engine.pending = none ∧ e.pending = none ∧ e ≠ s.engine ∧
      step s = .fault .outOfRange) :=
  ⟨⟨given (commandInput 1) imageA, _, { pending := none, w := 7, h := 8, n := 9 }, rfl, rfl, by decide, rfl⟩,
    ⟨given (.access (.pixRead 160 8)) imageA, { pending := none, w := 7, h := 8, n := 9 }, rfl, rfl, by decide, rfl⟩⟩

/-! ## Witnesses: reset, the framer, memory -/

theorem witness_ResetInputResetsEveryRegister :
    (∃ s s', HostMove s .reset s' ∧ s.status.busy = false) ∧ ∃ s s', HostMove s .reset s' ∧ s.status.busy = true :=
  hostMove_exists _

/-- Reset of an idle block, during ENCODE, and during DECODE of an image with and without room for a header. -/
theorem witness_ResetTouchesOnlyTheAbandonedFootprint :
    (∃ s s' t : State, HostMove s .reset s' ∧ step s = .next t ∧ s.engine.pending = none) ∧
    (∃ s s' t : State, HostMove s .reset s' ∧ step s = .next t ∧ s.engine.pending = some .encode) ∧
    (∃ s s' t : State, HostMove s .reset s' ∧ step s = .next t ∧ s.engine.pending = some .decode ∧ 40 ≤ pixels s) ∧
    (∃ s s' t : State, HostMove s .reset s' ∧ step s = .next t ∧ s.engine.pending = some .decode ∧ pixels s < 32) :=
  ⟨⟨_, _, _, hostMove_given _ imageA rfl rfl, rfl, rfl⟩,
    ⟨_, _, _, hostMove_givenFirst _ encodeA rfl (by decide), rfl, rfl⟩,
    ⟨_, _, _, hostMove_givenFirst _ decode8 rfl (by decide), rfl, rfl, by decide⟩,
    ⟨_, _, _, hostMove_givenFirst _ (busyWith .decode (idle 160 1 31 7 [] [])) rfl (by decide), rfl, rfl, by decide⟩⟩

theorem witness_FrameIsThePrefixThenTheBytes : ∃ payload : List Byte, lengthFits payload = true ∧ payload = [0x48, 0x69] :=
  ⟨_, by decide, rfl⟩

theorem witness_RebuildingAFrameGivesThePayloadBack :
    (∃ payload : List Byte, lengthFits payload = true ∧ payload = [0x00, 0xFF]) ∧
    ∃ text : List Word, (∀ c ∈ text, c.toNat ≤ 0xFF) ∧ text = [0x00, 0xFF] :=
  ⟨⟨_, by decide, rfl⟩, ⟨[0x00, 0xFF], by simp, rfl⟩⟩

theorem witness_MemoryWritesAreReadBack : ∃ m : Memory Byte, m.wf ∧ m = [(1, 7), (5, 8)] := ⟨_, by decide, rfl⟩

end Sys2Proof.Tests
end

section
/-! SUPPORT. The decoder and the encoder agree both ways (30_encoding.md R82); the decoder's own laws are in
Laws/Decode.lean. -/

namespace Sys2Proof

/-- Every command's word has RSVD zero (30_encoding.md R82, R83). -/
theorem encode_rsvd (i : Instr) : (encode i).extractLsb' 2 30 = 0 := by cases i <;> rfl

/-- OP values and commands correspond, and OP = 11 is no command's (30_encoding.md R82). -/
theorem decodeOp_eq_ok_iff (op : BitVec 2) (i : Instr) : decodeOp op = .ok i ↔ op = (encode i).extractLsb' 0 2 := by
  cases i <;> revert op <;> decide

/-- A word that decodes is its command's word, whole: both of its fields are the word's. -/
theorem eq_encode_of_decode {w : Word} {i : Instr} (h : decode w = .ok i) : w = encode i := by
  by_cases hr : w.extractLsb' 2 30 = 0
  · rw [decode_of_rsvdZero hr, decodeOp_eq_ok_iff] at h
    exact word_ext_fields h (hr.trans (encode_rsvd i).symm)
  · rw [decode_reservedBits hr] at h
    cases h

theorem decode_eq_ok_iff (w : Word) (i : Instr) : decode w = .ok i ↔ w = encode i :=
  ⟨eq_encode_of_decode, fun h => h ▸ decode_encode i⟩

end Sys2Proof
end

section
/-! SUPPORT. What a step does when the next move is the host's, with nothing pending or in a turn of a pending command:
the two cases of HostMove, taken apart once. -/

namespace Sys2Proof.Spec

open Sys2Proof.Machine

/-- The step is hostTurn of the state `u` that has only lost the turn, and `s'` is `u` without the input. -/
theorem HostMove.step_eq_hostTurn {s s' : State} {i : Input} (h : HostMove s i s') :
    ∃ u rest, u.inputs = i :: rest ∧ s' = u.withInputs rest ∧ step s = hostTurn u := by
  obtain ⟨hf, rest, hin, ⟨hp, rfl⟩ | ⟨hp, ts, ht, rfl⟩⟩ := h
  · exact ⟨s, rest, hin, rfl, step_idle hf hp⟩
  · obtain ⟨c, hc⟩ := Option.ne_none_iff_exists'.1 hp
    exact ⟨s.withTurns ts, rest, hin, rfl, step_host hf hc ht⟩

/-- A host access is performed on the state without it. -/
theorem HostMove.step_access {s s' : State} {a : Access} (h : HostMove s (.access a) s') : step s = hostAccess a s' := by
  obtain ⟨u, rest, hin, rfl, hstep⟩ := h.step_eq_hostTurn
  rw [hstep, hostTurn_access hin]

/-- A CMD write is the handshake (43_host_interface.md R195). -/
theorem HostMove.step_command {s s' : State} {w : Word} (h : HostMove s (commandInput w) s') :
    step s = hostCommand w s' :=
  h.step_access.trans (hostReg_offset .cmd fun r => hostRegWrite r w s')

/-- Taking the input and the turn away leaves STATUS alone. -/
theorem HostMove.status_eq {s s' : State} {i : Input} (h : HostMove s i s') : s'.status = s.status := by
  obtain ⟨-, rest, -, ⟨-, rfl⟩ | ⟨-, ts, -, rfl⟩⟩ := h <;> rfl

end Sys2Proof.Spec

namespace Sys2Proof.Machine

/-- A word that the decoder refuses, written while BUSY = 0 (30_encoding.md R83, R93). -/
theorem hostCommand_reserved {s : State} {w : Word} {e : DecodeError} (hb : s.status.busy = false)
    (hw : decode w = .error e) : hostCommand w s = .fault .reservedCommand := by
  simp only [hostCommand, hb, hw, Bool.false_eq_true, if_false]

end Sys2Proof.Machine
end

section
/-! SUPPORT. The proofs of the statements of 30_encoding.md. -/

namespace Sys2Proof.Proofs

open Sys2Proof Sys2Proof.Machine Sys2Proof.Spec

/-- Settles O2: the three words hold by definition, and a word that decodes has the RSVD and OP of its command's word. -/
theorem decodeAcceptsExactlyTheEncodedCommands : Obligations.DecodeAcceptsExactlyTheEncodedCommands :=
  ⟨rfl, rfl, rfl, decode_eq_ok_iff⟩

/-- Settles O3: the host's move is the handshake on the written word, which the decoder refuses. -/
theorem reservedCommandWordFaults : Obligations.ReservedCommandWordFaults := by
  intro s s' w hmove hbusy hreserved
  obtain ⟨e, he⟩ := decode_reserved hreserved
  rw [hmove.step_command]
  exact hostCommand_reserved (hmove.status_eq ▸ hbusy) he

/-- A pending ENCODE that answers a next state succeeds or raises one of its three errors (60_exceptions.md R216). -/
theorem encode_errcode {s t : State} (hp : s.engine.pending = some .encode) (h : exec .encode s = .next t) :
    (t.status.err = false ∧ t.status.errcode = 0) ∨
      (t.status.err = true ∧ (t.status.errcode = 1 ∨ t.status.errcode = 2 ∨ t.status.errcode = 3)) := by
  rw [exec_encode, execEncode_pending hp] at h
  rcases engineEncode_next h with ⟨e, rfl | rfl | rfl, rfl⟩ | ⟨text, pix', -, -, -, -, -, -, rfl⟩
  · exact .inr ⟨rfl, .inl rfl⟩
  · exact .inr ⟨rfl, .inr (.inl rfl)⟩
  · exact .inr ⟨rfl, .inr (.inr rfl)⟩
  · exact .inl ⟨rfl, rfl⟩

/-- A pending DECODE that answers a next state succeeds or raises one of its three errors (60_exceptions.md R217). -/
theorem decode_errcode {s t : State} (hp : s.engine.pending = some .decode) (h : exec .decode s = .next t) :
    (t.status.err = false ∧ t.status.errcode = 0) ∨
      (t.status.err = true ∧ (t.status.errcode = 3 ∨ t.status.errcode = 4 ∨ t.status.errcode = 5)) := by
  rw [exec_decode, execDecode_pending hp] at h
  rcases engineDecode_next h with ⟨e, rfl | rfl | rfl, rfl⟩ | ⟨L, payload, msg', -, -, -, -, -, rfl⟩
  · exact .inr ⟨rfl, .inr (.inl rfl)⟩
  · exact .inr ⟨rfl, .inr (.inr rfl)⟩
  · exact .inr ⟨rfl, .inl rfl⟩
  · exact .inl ⟨rfl, rfl⟩

/-- Settles O35, from everything each engine transition can answer as a next state. -/
theorem eachCommandRaisesItsOwnErrorCodes : Obligations.EachCommandRaisesItsOwnErrorCodes :=
  ⟨⟨rfl, rfl, rfl, rfl, rfl⟩, fun _ _ => encode_errcode, fun _ _ => decode_errcode⟩

/-- Settles O56: the frame's first 32 bits are those of `8n`, then come 8 bits a byte. The bits are so for every payload;
that the length fits is what makes the first 32 the whole length. -/
theorem frameIsThePrefixThenTheBytes : Obligations.FrameIsThePrefixThenTheBytes := by
  intro payload _
  refine ⟨length_frame payload, fun i hi => ?_, fun j hj m hm => ?_⟩
  · have hbit : 31 - i < 32 := by omega
    rw [getElem?_frame_prefix payload hi, BitVec.getLsbD_ofNat, bitLength_eq, Nat.mul_comm]
    simp only [hbit, decide_true, Bool.true_and]
  · rw [getElem?_frame_payload payload hm, List.getElem?_eq_getElem hj, Option.map_some]

end Sys2Proof.Proofs
end

section
/-! SUPPORT. The proofs of the statements of 40_framer.md. -/

namespace Sys2Proof.Proofs

open Sys2Proof Sys2Proof.Machine Sys2Proof.Spec

/-- A payload fits exactly up to the 2^29 - 1 bytes of 40_framer.md R111: one byte more gives 2^32 bits. -/
theorem lengthFits_iff_length_le (payload : List Byte) : lengthFits payload = true ↔ payload.length ≤ 2 ^ 29 - 1 := by
  rw [lengthFits_iff]
  omega

/-- Settles O58: the length equation, its bound in bytes, and the carrier by the channel of its bit. -/
theorem bitLengthIsExactAndBounded : Obligations.BitLengthIsExactAndBounded :=
  ⟨bitLength_eq, lengthFits_iff_length_le, fun i => ⟨carrier_eq i, rfl⟩⟩

end Sys2Proof.Proofs
end

section
/-! SUPPORT. A CMD write of ENCODE or DECODE whose precondition is broken (41_encoder.md R133, 42_decoder.md R163). -/

namespace Sys2Proof.Machine

theorem startEncode_geometryOutOfRange {s : State} (hb : s.status.busy = false)
    (hg : s.cfg.pixBytes < 4 * (s.width.toNat * s.height.toNat)) : startEncode s = .fault .geometryOutOfRange := by
  unfold startEncode
  rw [if_neg (by simp [hb]), if_pos hg]

theorem startEncode_messageOutOfRange {s : State} (hb : s.status.busy = false)
    (hg : 4 * (s.width.toNat * s.height.toNat) ≤ s.cfg.pixBytes) (hm : s.cfg.msgWords < s.msgLen.toNat) :
    startEncode s = .fault .messageOutOfRange := by
  unfold startEncode
  rw [if_neg (by simp [hb]), if_neg (Nat.not_lt.2 hg), if_pos hm]

theorem startDecode_geometryOutOfRange {s : State} (hb : s.status.busy = false)
    (hg : s.cfg.pixBytes < 4 * (s.width.toNat * s.height.toNat)) : startDecode s = .fault .geometryOutOfRange := by
  unfold startDecode
  rw [if_neg (by simp [hb]), if_pos hg]

end Sys2Proof.Machine
end

section
/-! SUPPORT. What a pending ENCODE reads and writes, in the words of the statements: its text, the bits of its frame, the
red bytes it leaves (30_encoding.md R89, 41_encoder.md R131, R135, R138). -/

namespace Sys2Proof.Spec

open Sys2Proof.Machine

theorem pixelCount_eq_pixels (s : State) : s.engine.pixelCount = pixels s := rfl

theorem raiseError_eq_endedWith (e : ErrorKind) (s : State) : raiseError e s = endedWith e.code s := rfl

theorem EncodePending.exec_eq {s : State} (hp : EncodePending s) : exec .encode s = engineEncode s :=
  (exec_encode s).trans (execEncode_pending hp.1)

/-- The pending command's pixels lie in PIX (41_encoder.md R133). -/
theorem EncodePending.pixels_le {s : State} (hp : EncodePending s) : 4 * pixels s ≤ s.cfg.pixBytes := hp.2.1

/-- The text that MSG holds is the text the engine reads, because its words lie in MSG. -/
theorem EncodePending.readText_eq_ok {s : State} {text : List Word} (hp : EncodePending s) (ht : HoldsText s text) :
    s.readText = .ok text := by
  obtain ⟨-, -, hmsg⟩ := hp
  obtain ⟨hlen, hwords⟩ := ht
  refine (readRange_eq_ok_iff ..).2 ⟨hlen, fun j hj => ⟨by omega, ?_⟩⟩
  rw [Nat.zero_add]
  exact hwords j (by omega)

/-- One unwritten word among the text's faults the read. -/
theorem EncodePending.readText_uninitialised {s : State} (hp : EncodePending s)
    (h : ∃ j < s.engine.n.toNat, s.msg.read j = none) : s.readText = .error .uninitialised := by
  obtain ⟨-, -, hmsg⟩ := hp
  exact readRange_uninitialised (by omega) (by simpa using h)

theorem HoldsText.n_ne_zero {s : State} {text : List Word} (ht : HoldsText s text) (hpos : 0 < text.length) :
    s.engine.n.toNat ≠ 0 :=
  ht.1 ▸ hpos.ne'

/-- The frame of a text is its BitStream, bit by bit (30_encoding.md R89). -/
theorem getElem?_frame_bytes {text : List Word} (hfit : 8 * text.length ≤ 2 ^ 32 - 1) {i : Nat}
    (hi : i < 32 + 8 * text.length) : (frame (bytes text))[i]? = some (streamBit text i) := by
  obtain ⟨-, hprefix, -⟩ := Proofs.frameIsThePrefixThenTheBytes (bytes text)
    ((lengthFits_iff _).2 (by rw [length_bytes]; omega))
  unfold streamBit
  split
  · next hlt => rw [hprefix i hlt, length_bytes]
  · next hge =>
    have hj : (i - 32) / 8 < text.length := by omega
    have hm : 7 - (i - 32) % 8 < 8 := by omega
    have hbit := getElem?_frame_payload (bytes text) (j := (i - 32) / 8) (m := (i - 32) % 8) (by omega)
    rw [show 32 + 8 * ((i - 32) / 8) + (i - 32) % 8 = i by omega] at hbit
    rw [hbit, bytes, List.getElem?_map, List.getElem?_eq_getElem hj]
    simp [hm]

/-- The write phase of a text: the red byte of pixel `i` takes bit `i` of the BitStream, and no other byte moves
(41_encoder.md R138). -/
theorem read_of_writeLsbs_frame {size : Nat} {text : List Word} {pix pix' : Memory Byte}
    (hfit : 8 * text.length ≤ 2 ^ 32 - 1) (h : writeLsbs size 0 (frame (bytes text)) pix = .ok pix') :
    (∀ i < 32 + 8 * text.length, ∀ old, pix.read (4 * i) = some old →
      pix'.read (4 * i) = some ((old &&& 0xFE) ||| (if streamBit text i then 1 else 0))) ∧
    (∀ a, (∀ i < 32 + 8 * text.length, a ≠ 4 * i) → pix'.read a = pix.read a) := by
  obtain ⟨hbits, hrest, -, -⟩ := writeLsbs_ok h
  simp only [length_frame, length_bytes, Nat.zero_add] at hbits hrest
  refine ⟨fun i hi old hold => ?_, hrest⟩
  obtain ⟨v, b, -, hv, hb, hnew⟩ := hbits i hi
  obtain rfl : v = old := Option.some.inj (hv.symm.trans hold)
  obtain rfl : streamBit text i = b := Option.some.inj ((getElem?_frame_bytes hfit hi).symm.trans hb)
  rw [hnew, setLsb_eq]

/-- The write phase and the success it ends in, where the frame's red bytes lie in PIX and were written
(41_encoder.md R138, R140). -/
theorem embedPayload_of_redWritten {s : State} {payload : List Byte}
    (hroom : 4 * (32 + 8 * payload.length) ≤ s.cfg.pixBytes) (hred : RedWritten s.pix (32 + 8 * payload.length)) :
    ∃ pix', writeLsbs s.cfg.pixBytes 0 (frame payload) s.pix = .ok pix' ∧
      embedPayload payload s =
        .next { endedWell s with pix := pix', bitLen := BitVec.ofNat 32 (8 * payload.length) } := by
  obtain ⟨pix', hpix⟩ := writeLsbs_total (size := s.cfg.pixBytes) (i := 0) (bs := frame payload) (pix := s.pix)
    (by simpa using hroom) (by simpa [RedWritten] using hred)
  refine ⟨pix', hpix, ?_⟩
  rw [embedPayload, hpix, bitLength_eq, Nat.mul_comm]
  rfl

end Sys2Proof.Spec
end

section
/-! SUPPORT. The proofs of the statements of 41_encoder.md on the CMD write, the success and the three errors of ENCODE. -/

namespace Sys2Proof.Proofs

open Sys2Proof Sys2Proof.Machine Sys2Proof.Spec

/-- Settles O18: the text passes every check, the write phase ends because the frame's red bytes were written, and what it
leaves is the frame bit by bit. -/
theorem encodeEmbedsTheText : Obligations.EncodeEmbedsTheText := by
  intro s text hp ht hpos hc hfit hcap hred
  have hgeom := hp.pixels_le
  have hwithin : ¬(2 ^ 32 - 1 < text.length * 8 ∨ s.engine.pixelCount < 32 + text.length * 8) := by
    rw [pixelCount_eq_pixels]
    omega
  obtain ⟨pix', hpix, hend⟩ := embedPayload_of_redWritten (s := s) (payload := bytes text)
    (by rw [length_bytes]; omega) (by rwa [length_bytes])
  refine ⟨pix', ?_, read_of_writeLsbs_frame hfit hpix⟩
  rw [hp.exec_eq, engineEncode_valid (ht.n_ne_zero hpos) (hp.readText_eq_ok ht) hc, if_neg hwithin, hend, length_bytes]

/-- Settles O20: the whole text is read before any character is judged, so an unwritten word faults first. -/
theorem encodeOfInvalidCharacterIsRefused : Obligations.EncodeOfInvalidCharacterIsRefused := by
  intro s hp hn
  have hn : s.engine.n.toNat ≠ 0 := fun h => hn (BitVec.eq_of_toNat_eq h)
  rw [hp.exec_eq]
  exact ⟨fun _ ht hc => engineEncode_invalid hn (hp.readText_eq_ok ht) hc,
    fun hunwritten => engineEncode_textFault hn (hp.readText_uninitialised hunwritten)⟩

/-- Settles O21: either capacity check of a text of single bytes fails, before any access to PIX. -/
theorem encodeBeyondCapacityIsRefused : Obligations.EncodeBeyondCapacityIsRefused := by
  intro s text hp ht hpos hc hover
  rw [hp.exec_eq, engineEncode_valid (ht.n_ne_zero hpos) (hp.readText_eq_ok ht) hc, pixelCount_eq_pixels, Nat.mul_comm,
    if_pos hover, raiseError_eq_endedWith, ErrorKind.code]

/-- Settles O17, from the order of the checks at each command's CMD write. -/
theorem brokenPreconditionsFaultAtTheCommandWrite : Obligations.BrokenPreconditionsFaultAtTheCommandWrite := by
  intro s hp hb
  rw [exec_encode, exec_decode, execEncode_idle hp, execDecode_idle hp]
  exact ⟨fun hg => ⟨startEncode_geometryOutOfRange hb hg, startDecode_geometryOutOfRange hb hg⟩,
    fun hg hm => startEncode_messageOutOfRange hb hg hm⟩

/-- Settles O19: the check for an empty text comes before every read. -/
theorem encodeOfEmptyTextIsEmptyPayload : Obligations.EncodeOfEmptyTextIsEmptyPayload := by
  intro s hp hn
  rw [hp.exec_eq, engineEncode_empty (by rw [hn]; rfl), raiseError_eq_endedWith, ErrorKind.code]

end Sys2Proof.Proofs
end

section
/-! SUPPORT. What a pending DECODE reads, in the words of the statements: the bits of the red bytes, the header and the
payload they spell, and the transition once the header is known (30_encoding.md R92, 42_decoder.md R165 to R169). -/

namespace Sys2Proof.Spec

open Sys2Proof.Machine

/-! ## The bits DECODE reads -/

/-- Bit 0 of the red bytes of pixels `i .. i + k - 1`, in that order (30_encoding.md R90). -/
def redBits (pix : Memory Byte) (i k : Nat) : List Bool := (List.range k).map fun t => redBit pix (i + t)

@[simp] theorem length_redBits (pix : Memory Byte) (i k : Nat) : (redBits pix i k).length = k := by simp [redBits]

/-- A read of LSBs gives those bits, where the red bytes lie in PIX and were written. -/
theorem readLsbs_eq_redBits {size : Nat} {pix : Memory Byte} {i k : Nat} (hroom : 4 * (i + k) ≤ size)
    (hred : ∀ t < k, ∃ v, pix.read (4 * (i + t)) = some v) : readLsbs size pix i k = .ok (redBits pix i k) := by
  refine (readLsbs_eq_ok_iff ..).2 ⟨length_redBits pix i k, fun t ht => ⟨by omega, ?_⟩⟩
  obtain ⟨v, hv⟩ := hred t ht
  simp [redBits, redBit, ht, hv]

/-- Any run of red LSBs spells the sum of 30_encoding.md R92. -/
theorem assembleMsb_redBits (pix : Memory Byte) (i k : Nat) :
    assembleMsb (redBits pix i k) = ∑ t ∈ Finset.range k, (redBit pix (i + t)).toNat <<< (k - 1 - t) := by
  rw [assembleMsb_eq_sum, length_redBits]
  refine Finset.sum_congr rfl fun t ht => ?_
  simp [redBits, Finset.mem_range.1 ht]

theorem assembleMsb_redBits_header (pix : Memory Byte) : assembleMsb (redBits pix 0 32) = headerSum pix := by
  simp only [assembleMsb_redBits, headerSum, Nat.zero_add]

theorem assembleMsb_redBits_byte (pix : Memory Byte) (j : Nat) :
    assembleMsb (redBits pix (32 + 8 * j) 8) = byteSum pix j :=
  assembleMsb_redBits pix (32 + 8 * j) 8

/-- The header is 32 bits wide, so the register BIT_LEN holds it whole. -/
theorem headerSum_lt (pix : Memory Byte) : headerSum pix < 2 ^ 32 := by
  simpa [assembleMsb_redBits_header] using assembleMsb_lt (redBits pix 0 32)

theorem toNat_ofNat_headerSum (pix : Memory Byte) : (BitVec.ofNat 32 (headerSum pix)).toNat = headerSum pix :=
  Nat.mod_eq_of_lt (headerSum_lt pix)

theorem headerSum_eq_zero {pix : Memory Byte} (h : ∀ i < 32, redBit pix i = false) : headerSum pix = 0 :=
  Finset.sum_eq_zero fun i hi => by simp [h i (Finset.mem_range.1 hi)]

/-! ## The header and the payload -/

/-- The header the engine reads is the one the red bytes spell (42_decoder.md R165). -/
theorem readHeader_of_redWritten {size : Nat} {pix : Memory Byte} (hroom : 4 * 32 ≤ size) (hred : RedWritten pix 32) :
    readHeader size pix = .ok (BitVec.ofNat 32 (headerSum pix)) :=
  (readHeader_eq_ok_iff ..).2
    ⟨redBits pix 0 32, readLsbs_eq_redBits hroom (by simpa [RedWritten] using hred), by
      rw [assembleMsb_redBits_header]⟩

/-- `k` bytes, as the pixels from 32 on spell them (30_encoding.md R92). -/
def payloadBytes (pix : Memory Byte) (k : Nat) : List Byte := (List.range k).map fun j => BitVec.ofNat 8 (byteSum pix j)

@[simp] theorem length_payloadBytes (pix : Memory Byte) (k : Nat) : (payloadBytes pix k).length = k := by
  simp [payloadBytes]

theorem getElem?_payloadBytes (pix : Memory Byte) {j k : Nat} (hj : j < k) :
    (payloadBytes pix k)[j]? = some (BitVec.ofNat 8 (byteSum pix j)) := by
  simp [payloadBytes, hj]

/-- The payload the engine reads is the one the red bytes spell (42_decoder.md R168). -/
theorem readPayload_of_redWritten {size k : Nat} {pix : Memory Byte} (hroom : 4 * (32 + 8 * k) ≤ size)
    (hred : RedWritten pix (32 + 8 * k)) : readPayload size pix 0 k = .ok (payloadBytes pix k) := by
  refine (readPayload_eq_ok_iff ..).2 ⟨length_payloadBytes pix k, fun j hj => ⟨redBits pix (32 + 8 * j) 8, ?_, ?_⟩⟩
  · rw [Nat.zero_add]
    exact readLsbs_eq_redBits (by omega) fun t ht => hred _ (by omega)
  · rw [getElem?_payloadBytes pix hj, assembleMsb_redBits_byte]

/-! ## The transition -/

theorem DecodePending.exec_eq {s : State} (hp : DecodePending s) : exec .decode s = engineDecode s :=
  (exec_decode s).trans (execDecode_pending hp.1)

/-- The pending command's pixels lie in PIX (42_decoder.md R163). -/
theorem DecodePending.pixels_le {s : State} (hp : DecodePending s) : 4 * pixels s ≤ s.cfg.pixBytes := hp.2

/-- A written header, and DECODE is its two checks on that header and the output (42_decoder.md R166 to R169). -/
theorem DecodePending.exec_of_header {s : State} (hp : DecodePending s) (hP : 32 ≤ pixels s)
    (hred : RedWritten s.pix 32) :
    exec .decode s =
      if headerSum s.pix % 8 ≠ 0 then .next (endedWith 5 s)
      else if pixels s < 32 + headerSum s.pix then .next (endedWith 3 s)
      else extractPayload (BitVec.ofNat 32 (headerSum s.pix)) s := by
  have hroom := hp.pixels_le
  rw [hp.exec_eq, engineDecode_header hP (readHeader_of_redWritten (by omega) hred), toNat_ofNat_headerSum,
    pixelCount_eq_pixels]
  rfl

/-- Past its checks, DECODE writes the bytes the red LSBs spell and ends well, where MSG has room for them
(42_decoder.md R168, R169). -/
theorem extractPayload_of_redWritten {s : State} {L : Word} (hpix : 4 * (32 + 8 * (L.toNat / 8)) ≤ s.cfg.pixBytes)
    (hmsg : L.toNat / 8 ≤ s.cfg.msgWords) (hred : RedWritten s.pix (32 + 8 * (L.toNat / 8))) :
    ∃ msg', writeCharacters s.cfg.msgWords 0 (payloadBytes s.pix (L.toNat / 8)) s.msg = .ok msg' ∧
      extractPayload L s =
        .next { endedWell s with msg := msg', msgLen := BitVec.ofNat 32 (L.toNat / 8), bitLen := L } := by
  obtain ⟨msg', hwrite⟩ := writeCharacters_total (size := s.cfg.msgWords) (j := 0)
    (bs := payloadBytes s.pix (L.toNat / 8)) (msg := s.msg) (by simpa using hmsg)
  refine ⟨msg', hwrite, ?_⟩
  rw [extractPayload, byteBits, readPayload_of_redWritten hpix hred]
  simp only [hwrite]
  rfl

/-- The output of `k` characters: words `0 .. k - 1` take them, and no other word moves (42_decoder.md R169). -/
theorem read_of_writeCharacters_payload {size k : Nat} {pix : Memory Byte} {msg msg' : Memory Word}
    (h : writeCharacters size 0 (payloadBytes pix k) msg = .ok msg') :
    (∀ j < k, j < size ∧ msg'.read j = some ((BitVec.ofNat 8 (byteSum pix j)).setWidth 32)) ∧
    (∀ j, k ≤ j → msg'.read j = msg.read j) := by
  obtain ⟨hchars, hrest, -, -⟩ := writeCharacters_ok h
  simp only [length_payloadBytes, Nat.zero_add] at hchars hrest
  refine ⟨fun j hj => ?_, fun j hj => hrest j fun t ht => by omega⟩
  obtain ⟨hroom, hread⟩ := hchars j hj
  exact ⟨hroom, by rw [hread, getElem?_payloadBytes pix hj, Option.map_some]⟩

/-- What a header within the capacity announces fits in MSG, for every conforming implementation (00_scope.md R7,
42_decoder.md R169). -/
theorem payload_le_msgWords {c : Config} {P L : Nat} (hcfg : c.wf) (hgeom : 4 * P ≤ c.pixBytes) (hcap : 32 + L ≤ P) :
    L / 8 ≤ c.msgWords := by
  have hfits : (c.pixBytes / 4 - 32) / 8 ≤ c.msgWords := hcfg.2
  omega

/-- With a header of 0 there is no payload to read and no word to write (42_decoder.md R173). -/
theorem extractPayload_zero (s : State) : extractPayload 0 s = .next { endedWell s with msgLen := 0, bitLen := 0 } := rfl

/-- A successful ENCODE leaves the bit length of a text of at least one character, which fits in 32 bits
(41_encoder.md R134, R136, R140). -/
theorem bitLen_ne_zero_of_engineEncode {s t : State} (h : engineEncode s = .next t) (hdone : t.status.done = true) :
    t.bitLen ≠ 0 := by
  rcases engineEncode_next h with ⟨e, -, rfl⟩ | ⟨text, pix', htext, hn, -, hfit, -, -, rfl⟩
  · simp at hdone
  · have hlen := ((readRange_eq_ok_iff ..).1 htext).1
    intro hzero
    have hbits : (text.length * 8) % 2 ^ 32 = 0 := congrArg BitVec.toNat hzero
    omega

end Sys2Proof.Spec
end

section
/-! SUPPORT. The proofs of the statements of 42_decoder.md on the success, the three errors and the empty text of DECODE. -/

namespace Sys2Proof.Proofs

open Sys2Proof Sys2Proof.Machine Sys2Proof.Spec

/-- Settles O25: the header passes both checks, the payload is read because its red bytes were written, and it fits in MSG
because a conforming MSG has a word for every eight pixels after the header. -/
theorem decodeExtractsTheText : Obligations.DecodeExtractsTheText := by
  intro s hp hcfg hP haligned hcap hred
  have hgeom := hp.pixels_le
  have hL := toNat_ofNat_headerSum s.pix
  have hlen : 8 * (headerSum s.pix / 8) = headerSum s.pix := by omega
  obtain ⟨msg', hwrite, hend⟩ := extractPayload_of_redWritten (s := s) (L := BitVec.ofNat 32 (headerSum s.pix))
    (by omega) (by rw [hL]; exact payload_le_msgWords hcfg hgeom hcap) (by rwa [hL, hlen])
  rw [hL] at hwrite hend
  refine ⟨msg', ?_, read_of_writeCharacters_payload hwrite⟩
  rw [hp.exec_of_header hP fun i hi => hred i (by omega), if_neg (not_not.2 haligned), if_neg (Nat.not_lt.2 hcap), hend]

/-- Settles O27: the check of the length comes before the check of the capacity. -/
theorem decodeOfUnalignedHeaderIsMalformedLength : Obligations.DecodeOfUnalignedHeaderIsMalformedLength := by
  intro s hp hP hred hunaligned
  rw [hp.exec_of_header hP hred, if_pos hunaligned]

/-- Settles O28: the header passes the check of the length and fails that of the capacity, a sum of natural numbers. -/
theorem decodeBeyondCapacityIsRefused : Obligations.DecodeBeyondCapacityIsRefused := by
  intro s hp hP hred haligned hover
  rw [hp.exec_of_header hP hred, if_neg (not_not.2 haligned), if_pos hover]

/-- Settles O30: a header of 0 passes both checks and leaves nothing to extract; and a successful ENCODE had a text. -/
theorem zeroHeaderDecodesToTheEmptyText : Obligations.ZeroHeaderDecodesToTheEmptyText := by
  refine ⟨fun s hp hP hred hzero => ?_, fun s t hp h hdone => ?_⟩
  · rw [hp.exec_of_header hP hred, headerSum_eq_zero hzero, if_neg (by decide), if_neg (Nat.not_lt.2 hP)]
    exact extractPayload_zero s
  · rw [exec_encode, execEncode_pending hp] at h
    exact bitLen_ne_zero_of_engineEncode h hdone

/-- Settles O26: the check of the pixel count comes before every read. -/
theorem decodeOfTooFewPixelsIsTruncatedHeader : Obligations.DecodeOfTooFewPixelsIsTruncatedHeader := by
  intro s hp hP
  rw [hp.exec_eq, engineDecode_truncated hP, raiseError_eq_endedWith, ErrorKind.code]

end Sys2Proof.Proofs
end

section
/-! SUPPORT. What the host's move leaves of the state it finds, and a REG access as the register's own
(43_host_interface.md R192 to R195). -/

namespace Sys2Proof.Spec

open Sys2Proof.Machine

/-- The access is performed on the state that has only lost its input and its turn. -/
theorem HostMove.eq_with_inputs_turns {s s' : State} {i : Input} (h : HostMove s i s') :
    ∃ is ts, s' = { s with inputs := is, turns := ts } := by
  obtain ⟨-, rest, -, ⟨-, rfl⟩ | ⟨-, ts, -, rfl⟩⟩ := h
  · exact ⟨rest, s.turns, rfl⟩
  · exact ⟨rest, ts, rfl⟩

theorem HostMove.cfg_eq {s s' : State} {i : Input} (h : HostMove s i s') : s'.cfg = s.cfg := by
  obtain ⟨is, ts, rfl⟩ := h.eq_with_inputs_turns
  rfl

theorem HostMove.pix_eq {s s' : State} {i : Input} (h : HostMove s i s') : s'.pix = s.pix := by
  obtain ⟨is, ts, rfl⟩ := h.eq_with_inputs_turns
  rfl

theorem HostMove.readReg_eq {s s' : State} {i : Input} (h : HostMove s i s') (r : Reg) : s'.readReg r = s.readReg r := by
  obtain ⟨is, ts, rfl⟩ := h.eq_with_inputs_turns
  cases r <;> rfl

/-- A read at a register's offset returns the register and does nothing else, BUSY or not (43_host_interface.md R192). -/
theorem HostMove.step_regRead {s s' : State} {o : Nat} (h : HostMove s (.access (.regRead o 32)) s') (r : Reg)
    (ho : o = r.offset) : step s = .next { s' with readData := some (s.readReg r) } := by
  subst ho
  rw [h.step_access, hostAccess, hostReg_offset, h.readReg_eq, returnToHost]

/-- A write at a register's offset is the write of that register. -/
theorem HostMove.step_regWrite {s s' : State} {o : Nat} {v : Word} (h : HostMove s (.access (.regWrite o 32 v)) s')
    (r : Reg) (ho : o = r.offset) : step s = hostRegWrite r v s' := by
  subst ho
  rw [h.step_access, hostAccess, hostReg_offset]

end Sys2Proof.Spec

namespace Sys2Proof.Machine

/-- Every multiple of 4 up to 0x1C is a register's offset (10_state.md R33). -/
theorem Reg.exists_eq_offset {o : Nat} (haligned : o % 4 = 0) (hrange : o ≤ 0x1C) : ∃ r : Reg, o = r.offset := by
  cases hr : Reg.ofOffset o with
  | none =>
    have hout := (Reg.ofOffset_eq_none_iff o).1 hr
    omega
  | some r => exact ⟨r, (Reg.ofOffset_eq_some_iff o r).1 hr⟩

theorem storeUnlessBusy_idle {stored s : State} (hb : s.status.busy = false) :
    storeUnlessBusy stored s = .next stored := by
  simp [storeUnlessBusy, hb]

theorem storeUnlessBusy_busy {stored s : State} (hb : s.status.busy = true) :
    storeUnlessBusy stored s = .fault .busyWrite := by
  simp [storeUnlessBusy, hb]

end Sys2Proof.Machine
end

section
/-! SUPPORT. A host write to CMD, case by case: BUSY, a reserved word, and each command's own CMD write
(43_host_interface.md R191, R195). -/

namespace Sys2Proof

/-- Only OP = 11 names no command (30_encoding.md R82). -/
theorem eq_three_of_decodeOp_error {op : BitVec 2} {e : DecodeError} (h : decodeOp op = .error e) : op = 3 := by
  revert op
  cases e <;> decide

/-- The decoder refuses reserved words only (30_encoding.md R83, R93). -/
theorem reserved_of_decode_error {w : Word} {e : DecodeError} (h : decode w = .error e) :
    w.extractLsb' 2 30 ≠ 0 ∨ w.extractLsb' 0 2 = 3 := by
  by_cases hr : w.extractLsb' 2 30 = 0
  · rw [decode_of_rsvdZero hr] at h
    exact .inr (eq_three_of_decodeOp_error h)
  · exact .inl hr

theorem encode_not_reserved (i : Instr) : ¬((encode i).extractLsb' 2 30 ≠ 0 ∨ (encode i).extractLsb' 0 2 = 3) := by
  cases i <;> decide

end Sys2Proof

namespace Sys2Proof.Machine

theorem exec_nop_idle {s : State} (hb : s.status.busy = false) : exec .nop s = .next s := by
  simp [exec_nop, execNop, hb]

theorem exec_nop_busy {s : State} (hb : s.status.busy = true) : exec .nop s = .fault .busyWrite := by
  simp [exec_nop, execNop, hb]

theorem hostCommand_busy {s : State} {w : Word} (hb : s.status.busy = true) : hostCommand w s = .fault .busyWrite := by
  simp [hostCommand, hb]

/-- While BUSY = 0 a command's word runs the command. -/
theorem hostCommand_encode {s : State} (hb : s.status.busy = false) (i : Instr) :
    hostCommand (encode i) s = exec i s := by
  simp [hostCommand, hb, decode_encode]

end Sys2Proof.Machine

namespace Sys2Proof.Spec

open Sys2Proof.Machine

/-- The CMD write of ENCODE while BUSY = 0: the two preconditions in order, then the latch (41_encoder.md R133). -/
theorem startEncode_idle {s : State} (hb : s.status.busy = false) :
    startEncode s =
      if s.cfg.pixBytes < 4 * (s.width.toNat * s.height.toNat) then .fault .geometryOutOfRange
      else if s.cfg.msgWords < s.msgLen.toNat then .fault .messageOutOfRange else .next (started .encode s) := by
  split
  · next hg => exact startEncode_geometryOutOfRange hb hg
  · next hg =>
    split
    · next hm => exact startEncode_messageOutOfRange hb (Nat.le_of_not_lt hg) hm
    · next hm => exact startEncode_accepts hb (Nat.le_of_not_lt hg) (Nat.le_of_not_lt hm)

/-- The CMD write of DECODE while BUSY = 0: the precondition, then the latch (42_decoder.md R163). -/
theorem startDecode_idle {s : State} (hb : s.status.busy = false) :
    startDecode s =
      if s.cfg.pixBytes < 4 * (s.width.toNat * s.height.toNat) then .fault .geometryOutOfRange
      else .next (started .decode s) := by
  split
  · next hg => exact startDecode_geometryOutOfRange hb hg
  · next hg => exact startDecode_accepts hb (Nat.le_of_not_lt hg)

/-- The handshake on one state: BUSY, then a word the decoder refuses, then the command that the word is. Once the
command is known, the comparisons of its word with 0 and 1 compute. -/
theorem hostCommand_eq_handshake {s : State} (hp : s.engine.pending = none ↔ s.status.busy = false) (w : Word) :
    hostCommand w s =
      if s.status.busy then .fault .busyWrite
      else if w.extractLsb' 2 30 ≠ 0 ∨ w.extractLsb' 0 2 = 3 then .fault .reservedCommand
      else if w = 0x00000000#32 then .next s
      else if s.cfg.pixBytes < 4 * (s.width.toNat * s.height.toNat) then .fault .geometryOutOfRange
      else if w = 0x00000001#32 then
        if s.cfg.msgWords < s.msgLen.toNat then .fault .messageOutOfRange else .next (started .encode s)
      else .next (started .decode s) := by
  cases hb : s.status.busy with
  | true => rw [hostCommand_busy hb, if_pos rfl]
  | false =>
    rw [if_neg Bool.false_ne_true]
    cases hw : decode w with
    | error e => rw [hostCommand_reserved hb hw, if_pos (reserved_of_decode_error hw)]
    | ok i =>
      obtain rfl := eq_encode_of_decode hw
      rw [hostCommand_encode hb, if_neg (encode_not_reserved i)]
      cases i with
      | nop => exact exec_nop_idle hb
      | encode =>
        rw [exec_encode, execEncode_idle (hp.2 hb)]
        exact startEncode_idle hb
      | decode =>
        rw [exec_decode, execDecode_idle (hp.2 hb)]
        exact startDecode_idle hb

end Sys2Proof.Spec
end

section
/-! SUPPORT. One byte of PIX, written and read by the host while BUSY = 0 (43_host_interface.md R197). -/

namespace Sys2Proof.Machine

theorem hostPixWrite_inRange {s : State} {a : Nat} (ha : a < s.cfg.pixBytes) (v : Byte) :
    hostPixWrite a v s = .ok { s with pix := s.pix.write a v } := by
  simp only [hostPixWrite, (Memory.writeAt_eq_ok_iff ..).2 ⟨ha, rfl⟩]

theorem hostPixWrite_outOfRange {s : State} {a : Nat} (ha : s.cfg.pixBytes ≤ a) (v : Byte) :
    hostPixWrite a v s = .error .outOfRange := by
  simp only [hostPixWrite, (Memory.writeAt_eq_error_iff ..).2 ⟨ha, rfl⟩]

theorem hostPixRead_written {s : State} {a : Nat} {v : Byte} (ha : a < s.cfg.pixBytes) (hv : s.pix.read a = some v) :
    hostPixRead a s = .ok { s with readData := some (v.setWidth 32) } := by
  simp only [hostPixRead, (Memory.readAt_eq_ok_iff ..).2 ⟨ha, hv⟩, returnToHost]

theorem hostPixRead_unwritten {s : State} {a : Nat} (ha : a < s.cfg.pixBytes) (hv : s.pix.read a = none) :
    hostPixRead a s = .error .uninitialised := by
  simp only [hostPixRead, (Memory.readAt_eq_error_iff ..).2 (.inl ⟨ha, hv, rfl⟩)]

theorem hostPixRead_outOfRange {s : State} {a : Nat} (ha : s.cfg.pixBytes ≤ a) :
    hostPixRead a s = .error .outOfRange := by
  simp only [hostPixRead, (Memory.readAt_eq_error_iff ..).2 (.inr ⟨ha, rfl⟩)]

end Sys2Proof.Machine
end

section
/-! SUPPORT. The proofs of the statements of 43_host_interface.md on NOP, the CMD write, the registers, PIX and the busy
rule. -/

namespace Sys2Proof.Proofs

open Sys2Proof Sys2Proof.Machine Sys2Proof.Spec

/-- Settles O14: the host's move is the handshake, and taking its input away changes nothing the handshake reads. -/
theorem commandWriteIsTheHandshake : Obligations.CommandWriteIsTheHandshake := by
  intro s s' w hmove hpending
  have hstep := hmove.step_command
  obtain ⟨is, ts, rfl⟩ := hmove.eq_with_inputs_turns
  exact hstep.trans (hostCommand_eq_handshake (s := { s with inputs := is, turns := ts }) hpending w)

/-- Settles O44: BUSY is checked first; with BUSY = 0 the access is the memory's own, in its range or not. -/
theorem pixAccessesReadAndWriteOneByte : Obligations.PixAccessesReadAndWriteOneByte := by
  refine ⟨fun s s' a v hmove => ?_, fun s s' a hmove => ?_⟩
  · rw [hmove.step_access, ← hmove.status_eq, ← hmove.cfg_eq, ← hmove.pix_eq, hostAccess]
    refine ⟨hostMemory_busy, fun hb ha => ?_, fun hb ha => ⟨s'.pix.write a v, ?_, ?_⟩⟩
    · rw [hostMemory_idle hb, hostPixWrite_outOfRange ha, orFault]
    · rw [hostMemory_idle hb, hostPixWrite_inRange ha, orFault]
    · exact ⟨s'.pix.read_write_same a v, fun b hne => s'.pix.read_write_ne v hne⟩
  · rw [hmove.step_access, ← hmove.status_eq, ← hmove.cfg_eq, ← hmove.pix_eq, hostAccess]
    refine ⟨hostMemory_busy, fun hb ha => ?_, fun hb ha hv => ?_, fun v hb ha hv => ?_⟩
    · rw [hostMemory_idle hb, hostPixRead_outOfRange ha, orFault]
    · rw [hostMemory_idle hb, hostPixRead_unwritten ha hv, orFault]
    · rw [hostMemory_idle hb, hostPixRead_written ha hv, orFault]

/-- Settles O13: NOP reads BUSY alone. -/
theorem nopHasNoEffect : Obligations.NopHasNoEffect :=
  ⟨rfl, fun _ => exec_nop_idle, fun _ => exec_nop_busy⟩

/-- Settles O41, offset by offset. -/
theorem registerReadsReturnTheRegister : Obligations.RegisterReadsReturnTheRegister := by
  intro s s' o hmove
  have hread := hmove.step_regRead
  exact ⟨hread .cmd, hread .status, hread .width, hread .height, hread .msgLen, hread .bitLen,
    fun ho => ho.elim (hread .reserved18) (hread .reserved1C)⟩

/-- Settles O42: each of the three writes is a store unless BUSY = 1. -/
theorem operandRegisterWritesStoreTheValue : Obligations.OperandRegisterWritesStoreTheValue := by
  intro s s' o v hmove
  have hwrite := hmove.step_regWrite
  rw [← hmove.status_eq]
  refine ⟨fun hb => ⟨fun ho => ?_, fun ho => ?_, fun ho => ?_⟩, fun hb ho => ?_⟩
  · exact (hwrite .width ho).trans (storeUnlessBusy_idle hb)
  · exact (hwrite .height ho).trans (storeUnlessBusy_idle hb)
  · exact (hwrite .msgLen ho).trans (storeUnlessBusy_idle hb)
  · rcases ho with ho | ho | ho
    · exact (hwrite .width ho).trans (storeUnlessBusy_busy hb)
    · exact (hwrite .height ho).trans (storeUnlessBusy_busy hb)
    · exact (hwrite .msgLen ho).trans (storeUnlessBusy_busy hb)

/-- Settles O43: the write of each of the four registers is no operation on any state. -/
theorem writesToReadOnlyRegistersAreIgnored : Obligations.WritesToReadOnlyRegistersAreIgnored := by
  rintro s s' o v hmove (ho | ho | ho | ho)
  · exact hmove.step_regWrite .status ho
  · exact hmove.step_regWrite .bitLen ho
  · exact hmove.step_regWrite .reserved18 ho
  · exact hmove.step_regWrite .reserved1C ho

/-- Settles O47: the ignored writes and the reads of REG do not look at BUSY (O43, R192), every other access looks at it
before its width and its place. -/
theorem busyRuleForEveryAccess : Obligations.BusyRuleForEveryAccess := by
  intro s s' hbusy
  have hbusy' {i : Input} (hmove : HostMove s i s') : s'.status.busy = true := hmove.status_eq ▸ hbusy
  refine ⟨fun o v hmove ho => ?_, writesToReadOnlyRegistersAreIgnored s s', fun o hmove haligned hrange => ?_,
    fun a w v hmove => ?_, fun a w hmove => ?_, fun j w v hmove => ?_, fun j w hmove => ?_⟩
  · obtain ⟨-, hstore⟩ := operandRegisterWritesStoreTheValue s s' o v hmove
    rcases ho with ho | ho
    · exact (hmove.step_regWrite .cmd ho).trans (hostCommand_busy (hbusy' hmove))
    · exact hstore hbusy ho
  · obtain ⟨r, ho⟩ := Reg.exists_eq_offset haligned hrange
    exact ⟨_, hmove.step_regRead r ho⟩
  all_goals exact hmove.step_access.trans (hostMemory_busy (hbusy' hmove))

end Sys2Proof.Proofs
end

section
/-! SUPPORT. What the outside world's move does to STATUS while nothing is pending (43_host_interface.md R191 to R200,
60_exceptions.md R222). -/

namespace Sys2Proof.Machine

/-- ERR and BUSY are never set together in the words of 30_encoding.md R84. -/
theorem Status.legal.busy_of_err {u : Status} (hu : u.legal) (he : u.err = true) : u.busy = false := by
  rcases hu with rfl | rfl | rfl | ⟨e, rfl⟩
  · cases he
  · cases he
  · cases he
  · rfl

/-- After an error nothing is pending, so the next move is the outside world's. -/
theorem State.Inv.pending_of_err {s : State} (hinv : s.Inv) (he : s.status.err = true) : s.engine.pending = none :=
  hinv.pending_iff.2 (hinv.status_legal.busy_of_err he)

@[simp] theorem pollOnce_status (rest : List Input) (s : State) : (pollOnce rest s).status = s.status := by
  unfold pollOnce
  split <;> rfl

/-- Of the commands a CMD write can name, NOP leaves STATUS alone; an accepted ENCODE or DECODE starts (R195). -/
theorem exec_idle_status {i : Instr} {s t : State} (hp : s.engine.pending = none) (h : exec i s = .next t) :
    t.status = s.status ∨ ((i = .encode ∨ i = .decode) ∧ t.status = Status.started) := by
  obtain ⟨-, ⟨-, rfl⟩ | ⟨-, ⟨hi, -, rfl⟩ | ⟨hi, rfl⟩⟩⟩ := exec_idle_next hp h
  · exact .inl rfl
  · exact .inr ⟨.inl hi, rfl⟩
  · exact .inr ⟨.inr hi, rfl⟩

/-- Of the host's accesses only an accepted CMD write changes STATUS. -/
theorem hostAccess_idle_status {a : Access} {s t : State} (hp : s.engine.pending = none)
    (h : hostAccess a s = .next t) :
    t.status = s.status ∨
    ∃ w, .access a = commandInput w ∧ (w = encode .encode ∨ w = encode .decode) ∧ t.status = Status.started := by
  rcases hostAccess_next h with ⟨v, rfl⟩ | ⟨rfl, -⟩ |
    ⟨-, ⟨v, -, rfl⟩ | ⟨v, -, rfl⟩ | ⟨v, -, rfl⟩ | ⟨p, v, -, -, rfl⟩ | ⟨j, v, -, -, rfl⟩ | ⟨w, i, rfl, hw, hexec⟩⟩
  iterate 7 exact .inl rfl
  obtain rfl := eq_encode_of_decode hw
  refine (exec_idle_status hp hexec).imp_right fun ⟨hi, hstarted⟩ => ⟨encode i, rfl, ?_, hstarted⟩
  exact hi.imp (congrArg encode) (congrArg encode)

end Sys2Proof.Machine

namespace Sys2Proof.Spec

open Sys2Proof.Machine

/-- With nothing pending, a step leaves STATUS alone, is an accepted CMD write, or is a reset. -/
theorem step_idle_status {s t : State} (hp : s.engine.pending = none) (h : step s = .next t) :
    t.status = s.status ∨
    (∃ s' w, HostMove s (commandInput w) s' ∧ (w = encode .encode ∨ w = encode .decode) ∧ t.status = Status.started) ∨
    ∃ s', HostMove s .reset s' ∧ t.status = Status.reset := by
  obtain ⟨hf, ⟨-, hturn⟩ | ⟨c, hc, -⟩⟩ := step_next h
  · rcases hostTurn_next hturn with ⟨-, rfl⟩ | ⟨a, rest, hin, haccess⟩ | ⟨rest, -, rfl⟩ | ⟨rest, hin, rfl⟩
    · exact .inl rfl
    · rcases hostAccess_idle_status (s := s.withInputs rest) hp haccess with hsame | ⟨w, ha, hw, hstarted⟩
      · exact .inl hsame
      · exact .inr (.inl ⟨s.withInputs rest, w, ⟨hf, rest, ha ▸ hin, .inl ⟨hp, rfl⟩⟩, hw, hstarted⟩)
    · exact .inl (pollOnce_status rest s)
    · exact .inr (.inr ⟨s.withInputs rest, ⟨hf, rest, hin, .inl ⟨hp, rfl⟩⟩, rfl⟩)
  · rw [hp] at hc
    cases hc

end Sys2Proof.Spec
end

section
/-! SUPPORT. The proofs of the statements of 60_exceptions.md on the state an error leaves and how long it stays. -/

namespace Sys2Proof.Proofs

open Sys2Proof Sys2Proof.Machine Sys2Proof.Spec

/-- Settles O34: the engine raises an error, which is the stated end, or completes a command, which leaves ERR = 0. -/
theorem failedCommandWritesOnlyStatus : Obligations.FailedCommandWritesOnlyStatus := by
  refine ⟨⟨rfl, rfl, rfl, rfl, rfl⟩, fun s t c hp hexec herr => ?_⟩
  rcases exec_pending_next hp hexec with ⟨e, rfl⟩ | ⟨-, pix', payload, -, -, -, -, rfl⟩ | ⟨-, L, payload, msg', -, rfl⟩
  · exact ⟨e, raiseError_eq_endedWith e s⟩
  · cases herr
  · cases herr

/-- Settles O38: ERR = 1 means that nothing is pending, so the step is the outside world's; of its moves only an accepted
command and a reset write STATUS. -/
theorem errorStaysUntilTheNextCommandOrReset : Obligations.ErrorStaysUntilTheNextCommandOrReset := by
  intro s t hinv herr hstep
  rcases step_idle_status (hinv.pending_of_err herr) hstep with
    hsame | ⟨s', w, hmove, hw, hstarted⟩ | ⟨s', hmove, hreset⟩
  · exact .inl hsame
  · rw [hstarted]
    exact .inr ⟨rfl, rfl, .inl ⟨s', w, hmove, hw, rfl⟩⟩
  · rw [hreset]
    exact .inr ⟨rfl, rfl, .inr ⟨s', hmove, rfl⟩⟩

end Sys2Proof.Proofs
end

section
/-! SUPPORT. The reset input as a host move: the registers it leaves and the fields it keeps (70_reset_and_hazards.md
R240). -/

namespace Sys2Proof.Machine

@[simp] theorem Status.reset_word : Status.reset.word = 0x00000000#32 := by decide

theorem resetInput_status_word (s : State) : (resetInput s).status.word = 0x00000000#32 := Status.reset_word

/-- Every register reads its reset value, whatever the block was doing (10_state.md R40). -/
theorem resetInput_readReg (s : State) (r : Reg) : (resetInput s).readReg r = 0 := by
  cases r with
  | status => exact resetInput_status_word s
  | _ => rfl

theorem resetInput_pending (s : State) : (resetInput s).engine.pending = none := rfl

/-- Reset rewrites the registers, PIX, MSG and the draw counter only. -/
theorem resetInput_frame (s : State) :
    (resetInput s).inputs = s.inputs ∧ (resetInput s).cfg = s.cfg ∧ (resetInput s).faulted = s.faulted ∧
      (resetInput s).readData = s.readData := by
  simp [resetInput]

end Sys2Proof.Machine

namespace Sys2Proof.Spec

open Sys2Proof.Machine

/-- The reset input is performed on the state without it. -/
theorem HostMove.step_reset {s s' : State} (h : HostMove s .reset s') : step s = .next (resetInput s') := by
  obtain ⟨u, rest, hin, rfl, hstep⟩ := h.step_eq_hostTurn
  rw [hstep, hostTurn_reset hin]

theorem HostMove.faulted_eq_none {s s' : State} {i : Input} (h : HostMove s i s') : s'.faulted = none := by
  obtain ⟨is, ts, rfl⟩ := h.eq_with_inputs_turns
  exact h.1

theorem HostMove.readData_eq {s s' : State} {i : Input} (h : HostMove s i s') : s'.readData = s.readData := by
  obtain ⟨is, ts, rfl⟩ := h.eq_with_inputs_turns
  rfl

end Sys2Proof.Spec
end

section
/-! SUPPORT. The proofs of the statements of 70_reset_and_hazards.md. -/

namespace Sys2Proof.Proofs

open Sys2Proof Sys2Proof.Machine Sys2Proof.Spec

/-- Settles O54: the step is the reset input's, which keeps the frame of the state it finds; that state differs from
`s` in its inputs and turns only. -/
theorem resetInputResetsEveryRegister : Obligations.ResetInputResetsEveryRegister := by
  intro s s' hmove
  obtain ⟨hinputs, hcfg, hfaulted, hreadData⟩ := resetInput_frame s'
  exact ⟨resetInput s', hmove.step_reset, resetInput_readReg s', resetInput_status_word s', resetInput_pending s',
    hinputs, hcfg.trans hmove.cfg_eq, hfaulted.trans hmove.faulted_eq_none, hreadData.trans hmove.readData_eq⟩

end Sys2Proof.Proofs
end

section
/-! SUPPORT. Said once, in the words of the statements: a step that goes on is the host's move or the engine's, or it
touches nothing but what the outside world does next (43_host_interface.md R196, 20_memory.md R61). -/

namespace Sys2Proof.Spec

open Sys2Proof.Machine

/-- POLL moves nothing of the block: at most its input goes, and the value read is returned (30_encoding.md R96). -/
theorem pollOnce_eq (rest : List Input) (s : State) :
    ∃ is, pollOnce rest s = { s with inputs := is, readData := some s.status.word } := by
  unfold pollOnce
  split
  · exact ⟨s.inputs, rfl⟩
  · exact ⟨rest, rfl⟩

/-- The outside world's move of the state `u` that has only lost the turn: nothing of the block moves, or it is one of
the moves of HostMove. `hmove` is how such a move of `u` is one of `s`. -/
theorem hostTurn_moves {s u t : State} {us : List Turn} (hu : u = { s with turns := us })
    (hmove : ∀ i rest, u.inputs = i :: rest → HostMove s i (u.withInputs rest)) (h : hostTurn u = .next t) :
    (∃ is ts v, t = { s with inputs := is, turns := ts, readData := v }) ∨
    (∃ s' a, HostMove s (.access a) s' ∧ hostAccess a s' = .next t) ∨
    (∃ s', HostMove s .reset s' ∧ t = resetInput s') := by
  rcases hostTurn_next h with ⟨-, rfl⟩ | ⟨a, rest, hin, haccess⟩ | ⟨rest, -, rfl⟩ | ⟨rest, hin, rfl⟩
  · exact .inl ⟨s.inputs, us, s.readData, hu⟩
  · exact .inr (.inl ⟨_, a, hmove _ rest hin, haccess⟩)
  · obtain ⟨is, hpoll⟩ := pollOnce_eq rest u
    exact .inl ⟨is, us, _, by rw [hpoll, hu]⟩
  · exact .inr (.inr ⟨_, hmove _ rest hin, rfl⟩)

/-- Everything a step can do: nothing to the block, a host access, a reset, or the engine's transition. -/
theorem step_moves {s t : State} (h : step s = .next t) :
    (∃ is ts v, t = { s with inputs := is, turns := ts, readData := v }) ∨
    (∃ s' a, HostMove s (.access a) s' ∧ hostAccess a s' = .next t) ∨
    (∃ s', HostMove s .reset s' ∧ t = resetInput s') ∨
    (∃ c s', EngineMove s c s' ∧ exec c.instr s' = .next t) := by
  have hostOnly {p q r e : Prop} (hpqr : p ∨ q ∨ r) : p ∨ q ∨ r ∨ e := hpqr.imp_right (Or.imp_right .inl)
  obtain ⟨hf, ⟨hp, hturn⟩ | ⟨c, hc, ⟨ht, hexec⟩ | ⟨ts, ht, hexec⟩ | ⟨ts, ht, hturn⟩⟩⟩ := step_next h
  · exact hostOnly (hostTurn_moves (us := s.turns) rfl (fun i rest hin => ⟨hf, rest, hin, .inl ⟨hp, rfl⟩⟩) hturn)
  · exact .inr (.inr (.inr ⟨c, s, ⟨hf, hc, .inl ⟨ht, rfl⟩⟩, hexec⟩))
  · exact .inr (.inr (.inr ⟨c, _, ⟨hf, hc, .inr ⟨ts, ht, rfl⟩⟩, hexec⟩))
  · have hp : s.engine.pending ≠ none := by simp [hc]
    exact hostOnly (hostTurn_moves (us := ts) rfl
      (fun i rest hin => ⟨hf, rest, hin, .inr ⟨hp, ts, ht, rfl⟩⟩) hturn)

/-- The engine works on the state that has only lost its turn. -/
theorem EngineMove.eq_with_turns {s s' : State} {c : Command} (h : EngineMove s c s') :
    ∃ ts, s' = { s with turns := ts } := by
  obtain ⟨-, -, ⟨-, rfl⟩ | ⟨ts, -, rfl⟩⟩ := h
  · exact ⟨s'.turns, rfl⟩
  · exact ⟨ts, rfl⟩

theorem EngineMove.pending_eq {s s' : State} {c : Command} (h : EngineMove s c s') : s'.engine.pending = some c := by
  obtain ⟨ts, rfl⟩ := h.eq_with_turns
  exact h.2.1

end Sys2Proof.Spec
end

section
/-! SUPPORT. The invariant of the block under each operation that a step performs. -/

namespace Sys2Proof.Machine

/-- The invariant says nothing about what the outside world does next, nor about the value last read. -/
theorem State.Inv.with_outside {s : State} (h : s.Inv) (is : List Input) (ts : List Turn) (v : Option Word) :
    ({ s with inputs := is, turns := ts, readData := v } : State).Inv := { h with }

/-- With BUSY = 0 only the memories and STATUS are constrained: what is latched and what the operands are is free. -/
theorem State.Inv.of_idle {s t : State} (h : s.Inv) (hcfg : t.cfg = s.cfg)
    (hpix : t.pix.wf ∧ t.pix.within s.cfg.pixBytes) (hmsg : t.msg.wf ∧ t.msg.within s.cfg.msgWords)
    (hlegal : t.status.legal) (hbusy : t.status.busy = false) (hp : t.engine.pending = none) : t.Inv where
  cfg_wf := hcfg ▸ h.cfg_wf
  pix_wf := hpix.1
  pix_within := hcfg ▸ hpix.2
  msg_wf := hmsg.1
  msg_within := hcfg ▸ hmsg.2
  status_legal := hlegal
  pending_iff := by simp [hbusy, hp]
  latched := by simp [hp]
  geometry := by simp [hp]
  message := by simp [hp]

theorem State.Inv.pix_canonical {s : State} (h : s.Inv) : s.pix.wf ∧ s.pix.within s.cfg.pixBytes :=
  ⟨h.pix_wf, h.pix_within⟩

theorem State.Inv.msg_canonical {s : State} (h : s.Inv) : s.msg.wf ∧ s.msg.within s.cfg.msgWords :=
  ⟨h.msg_wf, h.msg_within⟩

theorem State.Inv.busy_of_pending {s : State} (h : s.Inv) (hp : s.engine.pending ≠ none) : s.status.busy = true := by
  simpa [h.pending_iff] using hp

/-- An accepted CMD write latches the registers, within the checks it passed (43_host_interface.md R195). -/
theorem State.Inv.of_acceptCommand {s : State} (h : s.Inv) {c : Command}
    (hgeom : 4 * (s.width.toNat * s.height.toNat) ≤ s.cfg.pixBytes)
    (hmsg : c = .encode → s.msgLen.toNat ≤ s.cfg.msgWords) : (acceptCommand c s).Inv :=
  { h with
    status_legal := .inr (.inl rfl)
    pending_iff := by simp
    latched := fun _ => ⟨rfl, rfl, rfl⟩
    geometry := fun _ => hgeom
    message := fun hc => hmsg (Option.some.inj hc) }

theorem State.Inv.of_resetInput {s : State} (h : s.Inv) : (resetInput s).Inv := by
  obtain ⟨hpixwf, hmsgwf, hpix, hmsg, -⟩ := abandonCommand_spec s
  exact h.of_idle (by simp [resetInput]) ⟨hpixwf h.pix_wf, hpix h.pix_within⟩ ⟨hmsgwf h.msg_wf, hmsg h.msg_within⟩
    (.inl rfl) rfl rfl

/-- A command that ends leaves an idle block with canonical memories. -/
theorem State.Inv.of_engine_next {s t : State} (h : s.Inv) {c : Command} (hp : s.engine.pending = some c)
    (hexec : exec c.instr s = .next t) : t.Inv := by
  rcases exec_pending_next hp hexec with
    ⟨e, rfl⟩ | ⟨-, pix', payload, hwrite, -, -, -, rfl⟩ | ⟨-, L, payload, msg', hwrite, rfl⟩
  · exact h.of_idle rfl h.pix_canonical h.msg_canonical (.inr (.inr (.inr ⟨e, rfl⟩))) rfl rfl
  · obtain ⟨-, -, hwf, hwithin⟩ := writeLsbs_ok hwrite
    exact h.of_idle rfl ⟨hwf h.pix_wf, hwithin h.pix_within⟩ h.msg_canonical (.inr (.inr (.inl rfl))) rfl rfl
  · obtain ⟨-, -, hwf, hwithin⟩ := writeCharacters_ok hwrite
    exact h.of_idle rfl h.pix_canonical ⟨hwf h.msg_wf, hwithin h.msg_within⟩ (.inr (.inr (.inl rfl))) rfl rfl

theorem State.Inv.of_hostAccess_next {s t : State} (h : s.Inv) {a : Access} (haccess : hostAccess a s = .next t) :
    t.Inv := by
  rcases hostAccess_next haccess with ⟨v, rfl⟩ | ⟨rfl, -⟩ | ⟨hb, hstore⟩
  · exact h.with_outside s.inputs s.turns (some v)
  · exact h
  · have hp := h.pending_iff.2 hb
    rcases hstore with ⟨v, -, rfl⟩ | ⟨v, -, rfl⟩ | ⟨v, -, rfl⟩ | ⟨p, v, hlt, -, rfl⟩ | ⟨j, v, hlt, -, rfl⟩ |
      ⟨w, i, -, -, hexec⟩
    iterate 3 exact h.of_idle rfl h.pix_canonical h.msg_canonical h.status_legal hb hp
    · exact h.of_idle rfl ⟨Memory.write_wf h.pix_wf p v, Memory.write_within h.pix_within hlt v⟩ h.msg_canonical
        h.status_legal hb hp
    · exact h.of_idle rfl h.pix_canonical ⟨Memory.write_wf h.msg_wf j v, Memory.write_within h.msg_within hlt v⟩
        h.status_legal hb hp
    · obtain ⟨-, ⟨-, rfl⟩ | ⟨hgeom, ⟨-, hmsg, rfl⟩ | ⟨-, rfl⟩⟩⟩ := exec_idle_next hp hexec
      · exact h
      · exact h.of_acceptCommand hgeom fun _ => hmsg
      · exact h.of_acceptCommand hgeom nofun

end Sys2Proof.Machine

namespace Sys2Proof.Spec

open Sys2Proof.Machine

/-- The state a host move is performed on meets the invariant too. -/
theorem HostMove.inv {s s' : State} {i : Input} (hmove : HostMove s i s') (h : s.Inv) : s'.Inv := by
  obtain ⟨is, ts, rfl⟩ := hmove.eq_with_inputs_turns
  exact h.with_outside is ts s.readData

theorem EngineMove.inv {s s' : State} {c : Command} (hmove : EngineMove s c s') (h : s.Inv) : s'.Inv := by
  obtain ⟨ts, rfl⟩ := hmove.eq_with_turns
  exact h.with_outside s.inputs ts s.readData

end Sys2Proof.Spec
end

section
/-! SUPPORT. The invariant holds after reset, and every step keeps it. -/

namespace Sys2Proof.Proofs

open Sys2Proof Sys2Proof.Machine Sys2Proof.Spec

/-- Settles O6: each of the moves a step can be keeps the invariant. -/
theorem everyStepKeepsTheBlockInvariant : Obligations.EveryStepKeepsTheBlockInvariant := by
  intro s t hinv hstep
  rcases step_moves hstep with ⟨is, ts, v, rfl⟩ | ⟨s', a, hmove, haccess⟩ | ⟨s', hmove, rfl⟩ | ⟨c, s', hmove, hexec⟩
  · exact hinv.with_outside is ts v
  · exact (hmove.inv hinv).of_hostAccess_next haccess
  · exact (hmove.inv hinv).of_resetInput
  · exact (hmove.inv hinv).of_engine_next hmove.pending_eq hexec

/-- Settles O5: the sizes of State.reset conform, its memories list nothing, and nothing is pending. -/
theorem resetMeetsTheBlockInvariant : Obligations.ResetMeetsTheBlockInvariant where
  cfg_wf := by decide
  pix_wf := .nil
  pix_within := nofun
  msg_wf := .nil
  msg_within := nofun
  status_legal := .inl rfl
  pending_iff := by decide
  latched := nofun
  geometry := nofun
  message := nofun

end Sys2Proof.Proofs
end

section
/-! SUPPORT. Rebuilding a value from its bits, most-significant bit first, and the header and bytes of a frame
(30_encoding.md R92, 40_framer.md R119). -/

namespace Sys2Proof.Machine

/-- The sum of 30_encoding.md R92 over the bits of a value is the value. -/
theorem sum_bits_msbFirst {N : Nat} (v : BitVec N) :
    (∑ k ∈ Finset.range N, (v.getLsbD (N - 1 - k)).toNat <<< (N - 1 - k)) = v.toNat := by
  rw [← assembleMsb_bitsMsbFirst v, assembleMsb_eq_sum, length_bitsMsbFirst]
  refine Finset.sum_congr rfl fun k hk => ?_
  rw [List.getD_eq_getElem?_getD, getElem?_bitsMsbFirst v (Finset.mem_range.1 hk), Option.getD_some]

theorem sum_frame_header {payload : List Byte} (hfit : lengthFits payload = true) :
    (∑ k ∈ Finset.range 32, ((frame payload)[k]?.getD false).toNat <<< (31 - k)) = 8 * payload.length := by
  have hlt := (lengthFits_iff payload).1 hfit
  calc (∑ k ∈ Finset.range 32, ((frame payload)[k]?.getD false).toNat <<< (31 - k))
      = ∑ k ∈ Finset.range 32, ((BitVec.ofNat 32 (bitLength payload)).getLsbD (31 - k)).toNat <<< (31 - k) :=
        Finset.sum_congr rfl fun k hk => by
          rw [getElem?_frame_prefix payload (Finset.mem_range.1 hk), Option.getD_some]
    _ = (BitVec.ofNat 32 (bitLength payload)).toNat := sum_bits_msbFirst _
    _ = 8 * payload.length := by rw [BitVec.toNat_ofNat, bitLength_eq]; omega

theorem sum_frame_byte {payload : List Byte} {j : Nat} (hj : j < payload.length) :
    (∑ m ∈ Finset.range 8, ((frame payload)[32 + 8 * j + m]?.getD false).toNat <<< (7 - m)) = payload[j].toNat := by
  rw [← sum_bits_msbFirst payload[j]]
  refine Finset.sum_congr rfl fun m hm => ?_
  rw [getElem?_frame_payload payload (Finset.mem_range.1 hm), List.getElem?_eq_getElem hj, Option.map_some,
    Option.getD_some]

/-- The low byte of a single-byte code point, zero-extended, is the code point (40_framer.md R118, R119). -/
theorem setWidth_setWidth_byte {c : Word} (h : c.toNat ≤ 0xFF) : (c.setWidth 8).setWidth 32 = c := by
  apply BitVec.eq_of_toNat_eq
  simp only [BitVec.toNat_setWidth]
  omega

theorem map_setWidth_bytes {text : List Word} (h : ∀ c ∈ text, c.toNat ≤ 0xFF) :
    (bytes text).map (fun b => b.setWidth 32) = text := by
  rw [bytes, List.map_map]
  exact (List.map_congr_left fun c hc => setWidth_setWidth_byte (h c hc)).trans (List.map_id text)

end Sys2Proof.Machine
end

section
/-! SUPPORT. A CMD write that passes its checks, and what DECODE finds in the red bytes that ENCODE left
(41_encoder.md R138, 42_decoder.md R172). -/

namespace Sys2Proof.Machine

@[simp] theorem Status.succeeded_word : Status.succeeded.word = 0x00000002#32 := by decide

end Sys2Proof.Machine

namespace Sys2Proof.Spec

open Sys2Proof.Machine

theorem exec_encode_accepted {s : State} (hp : s.engine.pending = none) (hb : s.status.busy = false)
    (hgeom : 4 * (s.width.toNat * s.height.toNat) ≤ s.cfg.pixBytes) (hmsg : s.msgLen.toNat ≤ s.cfg.msgWords) :
    exec .encode s = .next (started .encode s) := by
  rw [exec_encode, execEncode_idle hp]
  exact startEncode_accepts hb hgeom hmsg

theorem exec_decode_accepted {s : State} (hp : s.engine.pending = none) (hb : s.status.busy = false)
    (hgeom : 4 * (s.width.toNat * s.height.toNat) ≤ s.cfg.pixBytes) : exec .decode s = .next (started .decode s) := by
  rw [exec_decode, execDecode_idle hp]
  exact startDecode_accepts hb hgeom

/-- A PIX whose red LSBs are the BitStream of a text, in every pixel of its frame (30_encoding.md R89, R90). -/
def Carries (pix : Memory Byte) (text : List Word) : Prop :=
  ∀ i < 32 + 8 * text.length, redBit pix i = streamBit text i

/-- The bit that the write phase puts into a red byte is the bit read from it. -/
theorem redBit_of_read_written {pix : Memory Byte} {i : Nat} {old : Byte} {b : Bool}
    (h : pix.read (4 * i) = some ((old &&& 0xFE) ||| (if b then 1 else 0))) : redBit pix i = b := by
  rw [redBit, h, Option.getD_some, ← setLsb_eq, setLsb_bit]

/-- The bit that carries bit `i` of a text is that of its frame. -/
theorem Carries.redBit_eq {pix : Memory Byte} {text : List Word} (h : Carries pix text)
    (hfit : 8 * text.length ≤ 2 ^ 32 - 1) {i : Nat} (hi : i < 32 + 8 * text.length) :
    redBit pix i = ((frame (bytes text))[i]?.getD false) := by
  rw [h i hi, getElem?_frame_bytes hfit hi, Option.getD_some]

theorem Carries.headerSum_eq {pix : Memory Byte} {text : List Word} (h : Carries pix text)
    (hfit : 8 * text.length ≤ 2 ^ 32 - 1) : headerSum pix = 8 * text.length := by
  have hfits : lengthFits (bytes text) = true := (lengthFits_iff _).2 (by rw [length_bytes]; omega)
  rw [← length_bytes text, ← sum_frame_header hfits]
  refine Finset.sum_congr rfl fun k hk => ?_
  have hk := Finset.mem_range.1 hk
  rw [h.redBit_eq hfit (by omega)]

/-- The character that DECODE rebuilds is the one that was hidden. -/
theorem Carries.character_eq {pix : Memory Byte} {text : List Word} (h : Carries pix text)
    (hfit : 8 * text.length ≤ 2 ^ 32 - 1) (hc : ∀ c ∈ text, c.toNat ≤ 0xFF) {j : Nat} (hj : j < text.length) :
    some ((BitVec.ofNat 8 (byteSum pix j)).setWidth 32) = text[j]? := by
  have hbyte : byteSum pix j = ((bytes text)[j]'(by simpa using hj)).toNat := by
    rw [← sum_frame_byte]
    refine Finset.sum_congr rfl fun m hm => ?_
    have hm := Finset.mem_range.1 hm
    rw [h.redBit_eq hfit (by omega)]
  rw [hbyte, BitVec.ofNat_toNat, BitVec.setWidth_eq, List.getElem?_eq_getElem hj]
  simp only [bytes, List.getElem_map]
  rw [setWidth_setWidth_byte (hc _ (List.getElem_mem hj))]

end Sys2Proof.Spec
end

section
/-! SUPPORT. The round trip, and the statements of 40_framer.md, 41_encoder.md and 42_decoder.md that it rests on. -/

namespace Sys2Proof.Proofs

open Sys2Proof Sys2Proof.Machine Sys2Proof.Spec

/-- Settles O57, from the bits of a frame. -/
theorem rebuildingAFrameGivesThePayloadBack : Obligations.RebuildingAFrameGivesThePayloadBack :=
  ⟨fun _ hfit => ⟨sum_frame_header hfit, fun _ => sum_frame_byte⟩, fun _ => map_setWidth_bytes⟩

/-- Settles O15, from the checks of the CMD write. -/
theorem encodeIsAccepted : Obligations.EncodeIsAccepted := fun _ => exec_encode_accepted

/-- Settles O16, from the check of the CMD write. -/
theorem decodeIsAccepted : Obligations.DecodeIsAccepted := fun _ => exec_decode_accepted

/-- ENCODE leaves the BitStream of its text in PIX, where every red byte of the frame is still written. -/
theorem encode_carries {s : State} {text : List Word} (hp : EncodePending s) (ht : HoldsText s text)
    (hpos : 0 < text.length) (hc : ∀ c ∈ text, c.toNat ≤ 0xFF) (hfit : 8 * text.length ≤ 2 ^ 32 - 1)
    (hcap : 32 + 8 * text.length ≤ pixels s) (hred : RedWritten s.pix (32 + 8 * text.length)) :
    ∃ pix', exec .encode s =
        .next { endedWell s with pix := pix', bitLen := BitVec.ofNat 32 (8 * text.length) } ∧
      Carries pix' text ∧ RedWritten pix' (32 + 8 * text.length) := by
  obtain ⟨pix', hexec, hbits, -⟩ := encodeEmbedsTheText s text hp ht hpos hc hfit hcap hred
  refine ⟨pix', hexec, fun i hi => ?_, fun i hi => ?_⟩
  all_goals obtain ⟨old, hold⟩ := hred i hi
  · exact redBit_of_read_written (hbits i hi old hold)
  · exact ⟨_, hbits i hi old hold⟩

/-- DECODE of a PIX that carries a text gives the text back (42_decoder.md R172). -/
theorem decode_of_carries {s : State} {text : List Word} (hp : DecodePending s) (hcfg : s.cfg.wf)
    (hcarries : Carries s.pix text) (hc : ∀ c ∈ text, c.toNat ≤ 0xFF) (hfit : 8 * text.length ≤ 2 ^ 32 - 1)
    (hcap : 32 + 8 * text.length ≤ pixels s) (hred : RedWritten s.pix (32 + 8 * text.length)) :
    ∃ msg', exec .decode s =
        .next { endedWell s with
          msg := msg', msgLen := BitVec.ofNat 32 text.length, bitLen := BitVec.ofNat 32 (8 * text.length) } ∧
      ∀ j < text.length, msg'.read j = text[j]? := by
  have hheader := hcarries.headerSum_eq hfit
  have hlen : headerSum s.pix / 8 = text.length := by omega
  obtain ⟨msg', hexec, hchars, -⟩ :=
    decodeExtractsTheText s hp hcfg (by omega) (by omega) (by omega) (by rwa [hheader])
  rw [hlen] at hexec hchars
  rw [hheader] at hexec
  exact ⟨msg', hexec, fun j hj => (hchars j hj).2.trans (hcarries.character_eq hfit hc hj)⟩

/-- Settles O32: ENCODE leaves a PIX that carries the text (O18), and DECODE of such a PIX gives the text back (O25),
whatever MSG holds meanwhile. -/
theorem decodeAfterEncodeGivesTheTextBack : Obligations.DecodeAfterEncodeGivesTheTextBack := by
  intro s text scrub hinv hp hgeom hmsg hlen htext hpos hc hcap hfit hred
  have hb := hinv.pending_iff.1 hp
  obtain ⟨pix', hencode, hcarries, hred'⟩ := encode_carries (s := started .encode s)
    ⟨rfl, hgeom, hmsg⟩ ⟨hlen, htext⟩ hpos hc hfit hcap hred
  obtain ⟨msg', hdecode, hread⟩ := decode_of_carries
    (s := started .decode { endedWell (started .encode s) with
      pix := pix', bitLen := BitVec.ofNat 32 (8 * text.length), msg := scrub })
    ⟨rfl, hgeom⟩ hinv.cfg_wf hcarries hc hfit hcap hred'
  refine ⟨_, _, _, _, exec_encode_accepted hp hb hgeom hmsg, hencode, Status.succeeded_word,
    exec_decode_accepted rfl rfl hgeom, hdecode, hread, ?_, ?_, Status.succeeded_word⟩
  all_goals
    rw [BitVec.toNat_ofNat]
    omega

end Sys2Proof.Proofs
end

section
/-! SUPPORT. What each operation of a step leaves unchanged: the sizes, the fault mark, WIDTH and HEIGHT, and the green,
blue and alpha bytes (00_scope.md R6, 10_state.md R29, R30, R38, 40_framer.md R117). -/

namespace Sys2Proof.Machine

/-- A command that goes on has no effect, is an accepted CMD write, or is the transition of the pending command. -/
theorem exec_next_cases {i : Instr} {s t : State} (h : exec i s = .next t) :
    t = s ∨ (∃ c, t = acceptCommand c s) ∨ ∃ c : Command, i = c.instr ∧ s.engine.pending = some c := by
  cases hp : s.engine.pending with
  | none =>
    obtain ⟨-, ⟨-, rfl⟩ | ⟨-, ⟨-, -, rfl⟩ | ⟨-, rfl⟩⟩⟩ := exec_idle_next hp h
    · exact .inl rfl
    · exact .inr (.inl ⟨.encode, rfl⟩)
    · exact .inr (.inl ⟨.decode, rfl⟩)
  | some c =>
    cases i with
    | nop =>
      obtain ⟨-, rfl⟩ := execNop_next h
      exact .inl rfl
    | encode =>
      cases c with
      | encode => exact .inr (.inr ⟨.encode, rfl, rfl⟩)
      | decode =>
        rw [exec_encode, execEncode_other hp] at h
        cases h
    | decode =>
      cases c with
      | encode =>
        rw [exec_decode, execDecode_other hp] at h
        cases h
      | decode => exact .inr (.inr ⟨.decode, rfl, rfl⟩)

/-- No command, at its CMD write or at its end, touches any of these. -/
theorem exec_frame {i : Instr} {s t : State} (h : exec i s = .next t) :
    t.cfg = s.cfg ∧ t.faulted = s.faulted ∧ t.width = s.width ∧ t.height = s.height ∧
      ∀ b, b % 4 ≠ 0 → t.pix.read b = s.pix.read b := by
  rcases exec_next_cases h with rfl | ⟨c, rfl⟩ | ⟨c, rfl, hp⟩
  iterate 2 exact ⟨rfl, rfl, rfl, rfl, fun _ _ => rfl⟩
  rcases exec_pending_next hp h with ⟨e, rfl⟩ | ⟨-, pix', payload, hwrite, -, -, -, rfl⟩ | ⟨-, L, payload, msg', -, rfl⟩
  · exact ⟨rfl, rfl, rfl, rfl, fun _ _ => rfl⟩
  · obtain ⟨-, hrest, -, -⟩ := writeLsbs_ok hwrite
    exact ⟨rfl, rfl, rfl, rfl, fun b hb => hrest b fun t _ => by omega⟩
  · exact ⟨rfl, rfl, rfl, rfl, fun _ _ => rfl⟩

/-- A host access writes WIDTH, HEIGHT or a green, blue or alpha byte only by the write of it. -/
theorem hostAccess_frame {a : Access} {s t : State} (h : hostAccess a s = .next t) :
    t.cfg = s.cfg ∧ t.faulted = s.faulted ∧
    (t.width = s.width ∨ ∃ v, a = .regWrite 0x08 32 v ∧ t.width = v) ∧
    (t.height = s.height ∨ ∃ v, a = .regWrite 0x0C 32 v ∧ t.height = v) ∧
    ∀ b, b % 4 ≠ 0 → t.pix.read b = s.pix.read b ∨ ∃ v, a = .pixWrite b 8 v ∧ t.pix.read b = some v := by
  rcases hostAccess_next h with ⟨v, rfl⟩ | ⟨rfl, -⟩ |
    ⟨-, ⟨v, rfl, rfl⟩ | ⟨v, rfl, rfl⟩ | ⟨v, -, rfl⟩ | ⟨p, v, -, rfl, rfl⟩ | ⟨j, v, -, -, rfl⟩ | ⟨w, i, -, -, hexec⟩⟩
  iterate 2 exact ⟨rfl, rfl, .inl rfl, .inl rfl, fun _ _ => .inl rfl⟩
  · exact ⟨rfl, rfl, .inr ⟨v, rfl, rfl⟩, .inl rfl, fun _ _ => .inl rfl⟩
  · exact ⟨rfl, rfl, .inl rfl, .inr ⟨v, rfl, rfl⟩, fun _ _ => .inl rfl⟩
  · exact ⟨rfl, rfl, .inl rfl, .inl rfl, fun _ _ => .inl rfl⟩
  · refine ⟨rfl, rfl, .inl rfl, .inl rfl, fun b _ => ?_⟩
    by_cases hbp : b = p
    · subst hbp
      exact .inr ⟨v, rfl, s.pix.read_write_same b v⟩
    · exact .inl (s.pix.read_write_ne v hbp)
  · exact ⟨rfl, rfl, .inl rfl, .inl rfl, fun _ _ => .inl rfl⟩
  · obtain ⟨hcfg, hfaulted, hwidth, hheight, hpix⟩ := exec_frame hexec
    exact ⟨hcfg, hfaulted, .inl hwidth, .inl hheight, fun b hb => .inl (hpix b hb)⟩

/-- An abandoned DECODE whose image has no header has no footprint (70_reset_and_hazards.md R243). -/
theorem abandonCommand_msg_of_tooFewPixels {s : State} (hP : s.engine.pixelCount < 32) :
    (abandonCommand s).msg = s.msg := by
  have hfootprint : s.engine.decodeFootprint s.cfg = 0 := by
    rw [Engine.decodeFootprint, prefixBits, Nat.sub_eq_zero_of_le hP.le]
    simp
  unfold abandonCommand
  split
  · rfl
  · rfl
  · rw [hfootprint, freeWords]

/-- Reset frees red bytes only. -/
theorem resetInput_read_of_not_red (s : State) {b : Nat} (hb : b % 4 ≠ 0) :
    (resetInput s).pix.read b = s.pix.read b := by
  obtain ⟨-, -, -, -, hpix, -⟩ := abandonCommand_spec s
  exact hpix b fun _ i _ => by omega

end Sys2Proof.Machine

namespace Sys2Proof.Spec

open Sys2Proof.Machine

/-- No step touches the sizes or the fault mark; WIDTH and HEIGHT change by a host write or reset, and a green, blue or
alpha byte by a host write alone. -/
theorem step_frame {s t : State} (h : step s = .next t) :
    t.cfg = s.cfg ∧ t.faulted = s.faulted ∧
    (t.width = s.width ∨ (∃ s' v, HostMove s (.access (.regWrite 0x08 32 v)) s' ∧ t.width = v) ∨
      ∃ s', HostMove s .reset s') ∧
    (t.height = s.height ∨ (∃ s' v, HostMove s (.access (.regWrite 0x0C 32 v)) s' ∧ t.height = v) ∨
      ∃ s', HostMove s .reset s') ∧
    ∀ b, b % 4 ≠ 0 → t.pix.read b = s.pix.read b ∨
      ∃ s' v, HostMove s (.access (.pixWrite b 8 v)) s' ∧ t.pix.read b = some v := by
  rcases step_moves h with ⟨is, ts, v, rfl⟩ | ⟨s', a, hmove, haccess⟩ | ⟨s', hmove, rfl⟩ | ⟨c, s', hmove, hexec⟩
  · exact ⟨rfl, rfl, .inl rfl, .inl rfl, fun _ _ => .inl rfl⟩
  · obtain ⟨is, ts, rfl⟩ := hmove.eq_with_inputs_turns
    obtain ⟨hcfg, hfaulted, hwidth, hheight, hpix⟩ := hostAccess_frame haccess
    refine ⟨hcfg, hfaulted, hwidth.imp_right ?_, hheight.imp_right ?_, fun b hb => (hpix b hb).imp_right ?_⟩
    · rintro ⟨v, rfl, hv⟩
      exact .inl ⟨_, v, hmove, hv⟩
    · rintro ⟨v, rfl, hv⟩
      exact .inl ⟨_, v, hmove, hv⟩
    · rintro ⟨v, rfl, hv⟩
      exact ⟨_, v, hmove, hv⟩
  · obtain ⟨-, hcfg, hfaulted, -⟩ := resetInput_frame s'
    refine ⟨hcfg.trans hmove.cfg_eq, hfaulted.trans (hmove.faulted_eq_none.trans hmove.1.symm), .inr (.inr ⟨s', hmove⟩),
      .inr (.inr ⟨s', hmove⟩), fun b hb => .inl ?_⟩
    rw [resetInput_read_of_not_red s' hb, hmove.pix_eq]
  · obtain ⟨ts, rfl⟩ := hmove.eq_with_turns
    obtain ⟨hcfg, hfaulted, hwidth, hheight, hpix⟩ := exec_frame hexec
    exact ⟨hcfg, hfaulted, .inl hwidth, .inl hheight, fun b hb => .inl (hpix b hb)⟩

end Sys2Proof.Spec
end

section
/-! SUPPORT. MSG_LEN and BIT_LEN under each operation (10_state.md R31, R32), and a host access while BUSY = 1
(43_host_interface.md R199). -/

namespace Sys2Proof.Machine

/-- While BUSY = 1 a host access that goes through returns a value at most. -/
theorem hostAccess_busy {a : Access} {s t : State} (hb : s.status.busy = true) (h : hostAccess a s = .next t) :
    ∃ v, t = { s with readData := v } := by
  rcases hostAccess_next h with ⟨v, rfl⟩ | ⟨rfl, -⟩ | ⟨hidle, -⟩
  · exact ⟨some v, rfl⟩
  · exact ⟨t.readData, rfl⟩
  · rw [hb] at hidle
    cases hidle

/-- A host access never writes BIT_LEN, and MSG_LEN only by the write of it: the commands it can start write neither. -/
theorem State.Inv.hostAccess_lengths {a : Access} {s t : State} (hinv : s.Inv) (h : hostAccess a s = .next t) :
    t.bitLen = s.bitLen ∧ (t.msgLen = s.msgLen ∨ ∃ v, a = .regWrite 0x10 32 v ∧ t.msgLen = v) := by
  rcases hostAccess_next h with ⟨v, rfl⟩ | ⟨rfl, -⟩ |
    ⟨hb, ⟨v, -, rfl⟩ | ⟨v, -, rfl⟩ | ⟨v, rfl, rfl⟩ | ⟨p, v, -, -, rfl⟩ | ⟨j, v, -, -, rfl⟩ | ⟨w, i, -, -, hexec⟩⟩
  iterate 4 exact ⟨rfl, .inl rfl⟩
  · exact ⟨rfl, .inr ⟨v, rfl, rfl⟩⟩
  iterate 2 exact ⟨rfl, .inl rfl⟩
  obtain ⟨-, ⟨-, rfl⟩ | ⟨-, ⟨-, -, rfl⟩ | ⟨-, rfl⟩⟩⟩ := exec_idle_next (hinv.pending_iff.2 hb) hexec
  all_goals exact ⟨rfl, .inl rfl⟩

/-- The engine writes the lengths only at a success, and MSG_LEN only at that of DECODE. -/
theorem exec_pending_lengths {c : Command} {s t : State} (hp : s.engine.pending = some c)
    (h : exec c.instr s = .next t) :
    (t.bitLen = s.bitLen ∨ t.status.done = true) ∧ (t.msgLen = s.msgLen ∨ c = .decode ∧ t.status.done = true) := by
  rcases exec_pending_next hp h with ⟨e, rfl⟩ | ⟨-, pix', payload, -, -, -, -, rfl⟩ | ⟨hc, L, payload, msg', -, rfl⟩
  · exact ⟨.inl rfl, .inl rfl⟩
  · exact ⟨.inr rfl, .inl rfl⟩
  · exact ⟨.inr rfl, .inr ⟨hc, rfl⟩⟩

end Sys2Proof.Machine

namespace Sys2Proof.Spec

open Sys2Proof.Machine

theorem HostMove.pending_eq {s s' : State} {i : Input} (h : HostMove s i s') :
    s'.engine.pending = s.engine.pending := by
  obtain ⟨is, ts, rfl⟩ := h.eq_with_inputs_turns
  rfl

/-- While a command is pending the host's accesses return values at most (20_memory.md R60). -/
theorem HostMove.hostAccess_pending {s s' t : State} {a : Access} (hmove : HostMove s (.access a) s') (hinv : s.Inv)
    (hp : s.engine.pending ≠ none) (h : hostAccess a s' = .next t) : ∃ v, t = { s' with readData := v } :=
  hostAccess_busy (hmove.status_eq ▸ hinv.busy_of_pending hp) h

theorem step_lengths {s t : State} (hinv : s.Inv) (h : step s = .next t) :
    (t.bitLen = s.bitLen ∨ (∃ c s', EngineMove s c s' ∧ t.status.done = true) ∨ ∃ s', HostMove s .reset s') ∧
    (t.msgLen = s.msgLen ∨ (∃ s' v, HostMove s (.access (.regWrite 0x10 32 v)) s' ∧ t.msgLen = v) ∨
      (∃ s', EngineMove s .decode s' ∧ t.status.done = true) ∨ ∃ s', HostMove s .reset s') := by
  rcases step_moves h with ⟨is, ts, v, rfl⟩ | ⟨s', a, hmove, haccess⟩ | ⟨s', hmove, rfl⟩ | ⟨c, s', hmove, hexec⟩
  · exact ⟨.inl rfl, .inl rfl⟩
  · obtain ⟨hbit, hmsg⟩ := (hmove.inv hinv).hostAccess_lengths haccess
    obtain ⟨is, ts, rfl⟩ := hmove.eq_with_inputs_turns
    refine ⟨.inl hbit, hmsg.imp_right ?_⟩
    rintro ⟨v, rfl, hv⟩
    exact .inl ⟨_, v, hmove, hv⟩
  · exact ⟨.inr (.inr ⟨s', hmove⟩), .inr (.inr (.inr ⟨s', hmove⟩))⟩
  · obtain ⟨hbit, hmsg⟩ := exec_pending_lengths hmove.pending_eq hexec
    obtain ⟨ts, rfl⟩ := hmove.eq_with_turns
    refine ⟨hbit.imp_right fun hdone => .inl ⟨c, _, hmove, hdone⟩, hmsg.imp_right ?_⟩
    rintro ⟨rfl, hdone⟩
    exact .inr (.inl ⟨_, hmove, hdone⟩)

end Sys2Proof.Spec
end

section
/-! SUPPORT. No operation of a step is refused. -/

namespace Sys2Proof.Machine

theorem embedPayload_ne_refused (payload : List Byte) (s : State) (r : Refusal) :
    embedPayload payload s ≠ .refused r := by
  unfold embedPayload
  split <;> nofun

theorem extractPayload_ne_refused (L : Word) (s : State) (r : Refusal) : extractPayload L s ≠ .refused r := by
  unfold extractPayload
  split
  · nofun
  · split <;> nofun

theorem engineEncode_ne_refused (s : State) (r : Refusal) : engineEncode s ≠ .refused r := by
  unfold engineEncode
  split
  · nofun
  · split
    · nofun
    · split
      · nofun
      · split
        · nofun
        · split
          · nofun
          · exact embedPayload_ne_refused _ s r

theorem engineDecode_ne_refused (s : State) (r : Refusal) : engineDecode s ≠ .refused r := by
  unfold engineDecode
  split
  · nofun
  · split
    · nofun
    · split
      · nofun
      · split
        · nofun
        · exact extractPayload_ne_refused _ s r

theorem exec_ne_refused (i : Instr) (s : State) (r : Refusal) : exec i s ≠ .refused r := by
  cases i with
  | nop =>
    rw [exec_nop, execNop]
    split <;> nofun
  | encode =>
    rw [exec_encode]
    unfold execEncode
    split
    · unfold startEncode
      repeat' split
      all_goals nofun
    · exact engineEncode_ne_refused s r
    · nofun
  | decode =>
    rw [exec_decode]
    unfold execDecode
    split
    · unfold startDecode
      repeat' split
      all_goals nofun
    · exact engineDecode_ne_refused s r
    · nofun

theorem hostReg_ne_refused {o w : Nat} {k : Reg → Host.Outcome State Fault Refusal} {r : Refusal}
    (hk : ∀ x, k x ≠ .refused r) : hostReg o w k ≠ .refused r := by
  unfold hostReg
  split
  · nofun
  · split
    · nofun
    · exact hk _

theorem hostMemory_ne_refused (native w : Nat) (s : State) (k : Except Fault State) (r : Refusal) :
    hostMemory native w s k ≠ .refused r := by
  unfold hostMemory
  split
  · nofun
  · split
    · nofun
    · cases k <;> nofun

theorem storeUnlessBusy_ne_refused (stored s : State) (r : Refusal) : storeUnlessBusy stored s ≠ .refused r := by
  unfold storeUnlessBusy
  split <;> nofun

theorem hostCommand_ne_refused (w : Word) (s : State) (r : Refusal) : hostCommand w s ≠ .refused r := by
  unfold hostCommand
  split
  · nofun
  · split
    · nofun
    · exact exec_ne_refused _ s r

theorem hostRegWrite_ne_refused (x : Reg) (v : Word) (s : State) (r : Refusal) : hostRegWrite x v s ≠ .refused r := by
  cases x with
  | cmd => exact hostCommand_ne_refused v s r
  | width | height | msgLen => exact storeUnlessBusy_ne_refused _ s r
  | status | bitLen | reserved18 | reserved1C => nofun

theorem hostAccess_ne_refused (a : Access) (s : State) (r : Refusal) : hostAccess a s ≠ .refused r := by
  cases a with
  | regWrite o w v => exact hostReg_ne_refused fun x => hostRegWrite_ne_refused x v s r
  | regRead o w => exact hostReg_ne_refused nofun
  | pixWrite | pixRead | msgWrite | msgRead => exact hostMemory_ne_refused _ _ s _ r

theorem hostTurn_ne_refused (s : State) (r : Refusal) : hostTurn s ≠ .refused r := by
  unfold hostTurn
  split
  · nofun
  · exact hostAccess_ne_refused _ _ r
  · nofun
  · nofun

theorem step_ne_refused (s : State) (r : Refusal) : step s ≠ .refused r := by
  unfold step transition
  split
  · nofun
  · split
    · exact hostTurn_ne_refused s r
    · split
      · exact exec_ne_refused _ s r
      · exact exec_ne_refused _ _ r
      · exact hostTurn_ne_refused _ r

end Sys2Proof.Machine
end

section
/-! SUPPORT. A pending command ends within the turns listed (43_host_interface.md R196, 70_reset_and_hazards.md
R252). -/

namespace Sys2Proof.Machine

theorem State.run_succ_of_next {s t : State} (k : Nat) (h : step s = .next t) :
    State.run (k + 1) s = State.run k t := by
  simp only [State.run, h]

theorem State.run_one_of_fault {s : State} {f : Fault} (h : step s = .fault f) : State.run 1 s = .fault f := by
  simp only [State.run, h]

/-- The engine's transition leaves nothing pending. -/
theorem exec_pending_next_idle {c : Command} {s t : State} (hp : s.engine.pending = some c)
    (h : exec c.instr s = .next t) : t.engine.pending = none := by
  rcases exec_pending_next hp h with ⟨e, rfl⟩ | ⟨-, pix', payload, -, -, -, -, rfl⟩ | ⟨-, L, payload, msg', -, rfl⟩
  all_goals rfl

/-- A step with a command pending leaves nothing pending, or uses up one host turn and leaves the command pending. -/
theorem State.Inv.step_pending {s t : State} (hinv : s.Inv) (hp : s.engine.pending ≠ none) (h : step s = .next t) :
    t.engine.pending = none ∨ (s.turns = .host :: t.turns ∧ t.engine.pending ≠ none) := by
  obtain ⟨hf, ⟨hnone, -⟩ | ⟨c, hc, ⟨-, hexec⟩ | ⟨ts, -, hexec⟩ | ⟨ts, ht, hturn⟩⟩⟩ := step_next h
  · exact absurd hnone hp
  · exact .inl (exec_pending_next_idle hc hexec)
  · exact .inl (exec_pending_next_idle (s := s.withTurns ts) hc hexec)
  · have hb : s.status.busy = true := hinv.busy_of_pending hp
    rcases hostTurn_next hturn with ⟨-, rfl⟩ | ⟨a, rest, -, haccess⟩ | ⟨rest, -, rfl⟩ | ⟨rest, -, rfl⟩
    · exact .inr ⟨ht, hp⟩
    · obtain ⟨v, rfl⟩ := hostAccess_busy (s := (s.withTurns ts).withInputs rest) hb haccess
      exact .inr ⟨ht, hp⟩
    · rw [pollOnce, if_pos (by exact hb)]
      exact .inr ⟨ht, hp⟩
    · exact .inl rfl

end Sys2Proof.Machine
end

section
/-! SUPPORT. The proofs of the statements about what every step keeps, and of the reset input's frame. -/

namespace Sys2Proof.Proofs

open Sys2Proof Sys2Proof.Machine Sys2Proof.Spec

/-- Settles O7, from the frame of a step. -/
theorem noStepChangesTheSizes : Obligations.NoStepChangesTheSizes := by
  intro s t hstep
  obtain ⟨hcfg, -⟩ := step_frame hstep
  exact hcfg

/-- Settles O50, from the frame of a step. -/
theorem onlyTheHostChangesWidthAndHeight : Obligations.OnlyTheHostChangesWidthAndHeight := by
  intro s t hstep
  obtain ⟨-, -, hwidth, hheight, -⟩ := step_frame hstep
  exact ⟨hwidth.resolve_left, hheight.resolve_left⟩

/-- Settles O52, from the frame of a step. -/
theorem onlyTheHostChangesGreenBlueAndAlpha : Obligations.OnlyTheHostChangesGreenBlueAndAlpha := by
  intro s t a hstep ha hchanged
  obtain ⟨-, -, -, -, hpix⟩ := step_frame hstep
  exact (hpix a ha).resolve_left hchanged

/-- Settles O51, from what a step does to the two lengths. -/
theorem whatChangesMsgLenAndBitLen : Obligations.WhatChangesMsgLenAndBitLen := by
  intro s t hinv hstep
  obtain ⟨hbit, hmsg⟩ := step_lengths hinv hstep
  exact ⟨hbit.resolve_left, hmsg.resolve_left⟩

/-- Settles O49: a pending command means BUSY = 1, and then every access that would write faults. -/
theorem hostCannotDisturbAPendingCommand : Obligations.HostCannotDisturbAPendingCommand := by
  intro s s' t a hinv hp hmove hstep
  exact hmove.hostAccess_pending hinv hp (hmove.step_access ▸ hstep)

/-- Settles O10, from the operations a step can be. -/
theorem noTransitionIsRefused : Obligations.NoTransitionIsRefused := step_ne_refused

/-- Settles O11: a marked state answers its mark, advancing records a fault, and no step that goes on moves the mark. -/
theorem faultMarkIsPermanent : Obligations.FaultMarkIsPermanent := by
  refine ⟨fun s f hf => ⟨step_faulted hf, ?_⟩, fun s f hstep => ?_, fun s t hstep => ?_⟩
  · simp only [State.advance, step_faulted hf, ← hf]
  · rw [State.advance, hstep]
  · obtain ⟨hf, -⟩ := step_next hstep
    obtain ⟨-, hfaulted, -⟩ := step_frame hstep
    exact ⟨hf, hfaulted.trans hf⟩

/-- Settles O12: a step faults, ends the command, or uses up one of the turns still listed and keeps the invariant
(O6). -/
theorem pendingCommandEndsWithinItsTurns : Obligations.PendingCommandEndsWithinItsTurns := by
  intro s hinv hf hp
  cases hstep : step s with
  | fault f => exact ⟨1, by omega, .inl ⟨f, State.run_one_of_fault hstep⟩⟩
  | refused r => exact absurd hstep (step_ne_refused s r)
  | next t =>
    rcases hinv.step_pending hp hstep with hnone | ⟨hturns, hp'⟩
    · exact ⟨1, by omega, .inr ⟨t, State.run_succ_of_next 0 hstep, hnone⟩⟩
    · have hinv' := everyStepKeepsTheBlockInvariant s t hinv hstep
      obtain ⟨-, hfaulted, -⟩ := step_frame hstep
      obtain ⟨k, hk, hend⟩ := pendingCommandEndsWithinItsTurns t hinv' (hfaulted.trans hf) hp'
      refine ⟨k + 1, by rw [hturns, List.length_cons]; omega, ?_⟩
      rwa [State.run_succ_of_next k hstep]
termination_by s => s.turns.length
decreasing_by simp [hturns]

/-- Settles O8: with nothing pending the move is the outside world's, which has none. -/
theorem idleBlockKeepsItsState : Obligations.IdleBlockKeepsItsState := by
  intro s hf hpending hb hinputs
  rw [step_idle hf (hpending.2 hb), hostTurn_nil hinputs]

/-- Settles O36, for each of the ends a pending command can have. -/
theorem engineTransitionEndsTheCommand : Obligations.EngineTransitionEndsTheCommand := by
  intro s t c hp hexec
  rcases exec_pending_next hp hexec with ⟨e, rfl⟩ | ⟨-, pix', payload, -, -, -, -, rfl⟩ | ⟨-, L, payload, msg', -, rfl⟩
  all_goals exact ⟨rfl, rfl, rfl, rfl, rfl, rfl, rfl, rfl, rfl, rfl, rfl⟩

/-- Settles O55, from what abandoning a command leaves: its footprint lies among the locations named. -/
theorem resetTouchesOnlyTheAbandonedFootprint : Obligations.ResetTouchesOnlyTheAbandonedFootprint := by
  intro s s' t hmove hstep
  obtain rfl : resetInput s' = t := Host.Outcome.next.inj (hmove.step_reset.symm.trans hstep)
  obtain ⟨is, ts, rfl⟩ := hmove.eq_with_inputs_turns
  obtain ⟨-, -, -, -, hred, hwords, hpix, hmsg⟩ := abandonCommand_spec { s with inputs := is, turns := ts }
  refine ⟨fun hp => ⟨hpix (by simp [hp]), hmsg (by simp [hp])⟩,
    fun hp => ⟨hmsg (by simp [hp]), fun a ha => hred a fun _ i hi => ha i ?_⟩,
    fun hp => ⟨hpix (by simp [hp]), fun hP => ?_, fun j hj => hwords j fun _ => ?_⟩⟩
  · exact hi.trans_le (Nat.min_le_left _ _)
  · exact abandonCommand_msg_of_tooFewPixels hP
  · exact (Nat.min_le_left _ _).trans hj

end Sys2Proof.Proofs
end

section
/-! SUPPORT. ENCODE on two states: what the write phase and the checks before it depend on (41_encoder.md R142,
R143). -/

namespace Sys2Proof.Machine

variable {α : Type}

/-- Inside a memory, a read faults only on a location that nothing was written to. -/
theorem Memory.uninitialised_of_readAt {size a : Nat} {m : Memory α} {f : Fault} (ha : a < size)
    (h : m.readAt size a = .error f) : f = .uninitialised := by
  rcases (Memory.readAt_eq_error_iff ..).1 h with ⟨-, -, hf⟩ | ⟨hge, -⟩
  · exact hf
  · omega

/-- Only the locations named are looked at. -/
theorem readRange_congr {size j k : Nat} {m m' : Memory α} (h : ∀ i < k, m'.read (j + i) = m.read (j + i)) :
    m'.readRange size j k = m.readRange size j k := by
  induction k generalizing j with
  | zero => rfl
  | succ k ih =>
    have h0 : m'.readAt size j = m.readAt size j := by
      simp only [Memory.readAt, show m'.read j = m.read j from h 0 (by omega)]
    have hr := ih (j := j + 1) fun i hi => by
      rw [show j + 1 + i = j + (i + 1) by omega]
      exact h (i + 1) (by omega)
    simp only [Memory.readRange, h0, hr]

/-! ## The write phase -/

/-- Where the carriers agree, the write phase faults alike: each carrier is looked at before it is written. -/
theorem writeLsbs_error_congr {size i : Nat} {bs : List Bool} {p q : Memory Byte} {f : Fault}
    (h : ∀ t < bs.length, q.read (4 * (i + t)) = p.read (4 * (i + t))) (hp : writeLsbs size i bs p = .error f) :
    writeLsbs size i bs q = .error f := by
  induction bs generalizing i p q with
  | nil => cases hp
  | cons b bs ih =>
    have h0 : q.readAt size (4 * i) = p.readAt size (4 * i) := by
      simp only [Memory.readAt, show q.read (4 * i) = p.read (4 * i) from h 0 (by simp)]
    simp only [writeLsbs, carrier_eq, h0] at hp ⊢
    cases hv : p.readAt size (4 * i) with
    | error g => simpa only [hv] using hp
    | ok v =>
      obtain ⟨hlt, -⟩ := (Memory.readAt_eq_ok_iff ..).1 hv
      have hwrite (m : Memory Byte) (x : Byte) : m.writeAt size (4 * i) x = .ok (m.write (4 * i) x) :=
        (Memory.writeAt_eq_ok_iff ..).2 ⟨hlt, rfl⟩
      simp only [hv, hwrite] at hp ⊢
      refine ih (fun t ht => ?_) hp
      rw [Memory.read_write_ne _ _ (by omega), Memory.read_write_ne _ _ (by omega),
        show i + 1 + t = i + (t + 1) by omega]
      exact h (t + 1) (by simpa using ht)

/-- Where the carriers agree, the write phase leaves them alike. -/
theorem writeLsbs_congr {size i : Nat} {bs : List Bool} {p p' q : Memory Byte}
    (h : ∀ t < bs.length, q.read (4 * (i + t)) = p.read (4 * (i + t))) (hp : writeLsbs size i bs p = .ok p') :
    ∃ q', writeLsbs size i bs q = .ok q' ∧ ∀ t < bs.length, q'.read (4 * (i + t)) = p'.read (4 * (i + t)) := by
  cases hq : writeLsbs size i bs q with
  | error f =>
    rw [writeLsbs_error_congr (fun t ht => (h t ht).symm) hq] at hp
    cases hp
  | ok q' =>
    refine ⟨q', rfl, fun t ht => ?_⟩
    obtain ⟨v, b, -, hv, hb, hnew⟩ := (writeLsbs_ok hp).1 t ht
    obtain ⟨w, c, -, hw, hc, hnew'⟩ := (writeLsbs_ok hq).1 t ht
    obtain rfl : w = v := Option.some.inj (hw.symm.trans ((h t ht).trans hv))
    obtain rfl : c = b := Option.some.inj (hc.symm.trans hb)
    rw [hnew, hnew']

/-- Where all red bytes agree, all red bytes agree after the write phase. -/
theorem writeLsbs_congr_red {size i : Nat} {bs : List Bool} {p p' q : Memory Byte}
    (h : ∀ a, a % 4 = 0 → q.read a = p.read a) (hp : writeLsbs size i bs p = .ok p') :
    ∃ q', writeLsbs size i bs q = .ok q' ∧ ∀ a, a % 4 = 0 → q'.read a = p'.read a := by
  obtain ⟨q', hq, hcarriers⟩ := writeLsbs_congr (q := q) (fun t _ => h _ (by omega)) hp
  obtain ⟨-, hrest, -, -⟩ := writeLsbs_ok hp
  obtain ⟨-, hrest', -, -⟩ := writeLsbs_ok hq
  refine ⟨q', hq, fun a ha => ?_⟩
  by_cases hcarrier : ∃ t < bs.length, a = 4 * (i + t)
  · obtain ⟨t, ht, rfl⟩ := hcarrier
    exact hcarriers t ht
  · have hother : ∀ t < bs.length, a ≠ 4 * (i + t) := fun t ht hat => hcarrier ⟨t, ht, hat⟩
    rw [hrest' a hother, hrest a hother, h a ha]

/-- "`((v & 0xFE) | b) & 0xFE | b = (v & 0xFE) | b`" for the whole frame (41_encoder.md R143). -/
theorem writeLsbs_idempotent {size i : Nat} {bs : List Bool} {p p' : Memory Byte} (hwf : p.wf)
    (h : writeLsbs size i bs p = .ok p') : writeLsbs size i bs p' = .ok p' := by
  obtain ⟨hbits, -, hwf', -⟩ := writeLsbs_ok h
  cases hr : writeLsbs size i bs p' with
  | error f =>
    obtain ⟨t, ht, herror⟩ := writeLsbs_error hr
    obtain ⟨v, b, hlt, -, -, hnew⟩ := hbits t ht
    rw [(Memory.readAt_eq_ok_iff ..).2 ⟨hlt, hnew⟩] at herror
    cases herror
  | ok p'' =>
    obtain ⟨hbits', hrest', hwf'', -⟩ := writeLsbs_ok hr
    refine congrArg _ (Memory.ext_of_wf (hwf'' (hwf' hwf)) (hwf' hwf) fun a => ?_)
    by_cases ha : ∃ t < bs.length, a = 4 * (i + t)
    · obtain ⟨t, ht, rfl⟩ := ha
      obtain ⟨v, b, -, -, hb, hnew⟩ := hbits t ht
      obtain ⟨w, c, -, hw, hc, hnew'⟩ := hbits' t ht
      obtain rfl : w = setLsb v b := Option.some.inj (hw.symm.trans hnew)
      obtain rfl : c = b := Option.some.inj (hc.symm.trans hb)
      rw [hnew', hnew, setLsb_setLsb]
    · exact hrest' a fun t ht hat => ha ⟨t, ht, hat⟩

/-! ## embedPayload -/

theorem embedPayload_of_ok {payload : List Byte} {s : State} {pix' : Memory Byte}
    (h : writeLsbs s.cfg.pixBytes 0 (frame payload) s.pix = .ok pix') :
    embedPayload payload s =
      .next (completeCommand { s with pix := pix', bitLen := BitVec.ofNat 32 (bitLength payload) }) := by
  simp only [embedPayload, h]

theorem embedPayload_of_error {payload : List Byte} {s : State} {f : Fault}
    (h : writeLsbs s.cfg.pixBytes 0 (frame payload) s.pix = .error f) : embedPayload payload s = .fault f := by
  simp only [embedPayload, h]

theorem embedPayload_next {payload : List Byte} {s t : State} (h : embedPayload payload s = .next t) :
    ∃ pix', writeLsbs s.cfg.pixBytes 0 (frame payload) s.pix = .ok pix' ∧
      t = completeCommand { s with pix := pix', bitLen := BitVec.ofNat 32 (bitLength payload) } := by
  unfold embedPayload at h
  split at h
  · cases h
  · next pix' hpix =>
    cases h
    exact ⟨pix', hpix, rfl⟩

theorem embedPayload_fault {payload : List Byte} {s : State} {f : Fault} (h : embedPayload payload s = .fault f) :
    writeLsbs s.cfg.pixBytes 0 (frame payload) s.pix = .error f := by
  unfold embedPayload at h
  split at h
  · next hpix =>
    cases h
    exact hpix
  · cases h

/-! ## The checks -/

/-- The checks before the write phase depend on the latched operands and the text alone: of two states that agree on
these, both fault on the text, both raise the same error, or both embed the same payload (41_encoder.md R139). -/
theorem engineEncode_checks {s₁ s₂ : State} (hengine : s₂.engine = s₁.engine) (htext : s₂.readText = s₁.readText) :
    (∃ f, s₁.readText = .error f ∧ engineEncode s₁ = .fault f ∧ engineEncode s₂ = .fault f) ∨
    (∃ e, engineEncode s₁ = .next (raiseError e s₁) ∧ engineEncode s₂ = .next (raiseError e s₂)) ∨
    (∃ payload, payload.length = s₁.engine.n.toNat ∧ 32 + 8 * payload.length ≤ s₁.engine.pixelCount ∧
      engineEncode s₁ = embedPayload payload s₁ ∧ engineEncode s₂ = embedPayload payload s₂) := by
  by_cases hn : s₁.engine.n.toNat = 0
  · exact .inr (.inl ⟨.emptyPayload, engineEncode_empty hn, engineEncode_empty (hengine ▸ hn)⟩)
  have hn₂ : s₂.engine.n.toNat ≠ 0 := hengine ▸ hn
  cases ht : s₁.readText with
  | error f => exact .inl ⟨f, rfl, engineEncode_textFault hn ht, engineEncode_textFault hn₂ (htext.trans ht)⟩
  | ok text =>
    have ht₂ := htext.trans ht
    by_cases hc : ∃ c ∈ text, 0xFF < c.toNat
    · exact .inr (.inl ⟨.invalidCharacter, engineEncode_invalid hn ht hc, engineEncode_invalid hn₂ ht₂ hc⟩)
    · have hc : ∀ c ∈ text, c.toNat ≤ 0xFF := fun c hmem => Nat.le_of_not_lt fun hlt => hc ⟨c, hmem, hlt⟩
      rw [engineEncode_valid hn ht hc, engineEncode_valid hn₂ ht₂ hc, hengine]
      split
      · exact .inr (.inl ⟨.capacityExceeded, rfl, rfl⟩)
      · next hcap =>
        have hlen := ((readRange_eq_ok_iff ..).1 ht).1
        exact .inr (.inr ⟨bytes text, by rwa [length_bytes], by rw [length_bytes]; omega, rfl, rfl⟩)

end Sys2Proof.Machine
end

section
/-! SUPPORT. DECODE on two states: the header and the payload depend on the red bytes read alone, the output on no
word of MSG (20_memory.md R68, 42_decoder.md R171); and where a read of them faults. -/

namespace Sys2Proof.Machine

theorem readHeader_error {size : Nat} {pix : Memory Byte} {f : Fault} (h : readHeader size pix = .error f) :
    readLsbs size pix 0 32 = .error f := by
  unfold readHeader at h
  split at h
  · next hbs =>
    cases h
    exact hbs
  · cases h

theorem readHeader_of_error {size : Nat} {pix : Memory Byte} {f : Fault} (h : readLsbs size pix 0 32 = .error f) :
    readHeader size pix = .error f := by
  simp only [readHeader, prefixBits, h]

theorem readHeader_congr {size : Nat} {p q : Memory Byte} (h : ∀ i < 32, q.read (4 * i) = p.read (4 * i)) :
    readHeader size q = readHeader size p := by
  simp only [readHeader, prefixBits, readLsbs_congr (i := 0) (k := 32) (size := size) (by simpa using h)]

/-- Inside PIX, a payload with an unwritten red byte faults for that reason. -/
theorem readPayload_uninitialised {size k : Nat} {pix : Memory Byte} (hroom : 4 * (32 + 8 * k) ≤ size)
    (h : ∃ i, 32 ≤ i ∧ i < 32 + 8 * k ∧ pix.read (4 * i) = none) :
    readPayload size pix 0 k = .error .uninitialised := by
  obtain ⟨i, hge, hlt, hnone⟩ := h
  cases hr : readPayload size pix 0 k with
  | ok ps =>
    obtain ⟨-, hall⟩ := (readPayload_eq_ok_iff ..).1 hr
    obtain ⟨bs, hbs, -⟩ := hall ((i - 32) / 8) (by omega)
    rw [readLsbs_uninitialised (by omega) ⟨(i - 32) % 8, by omega, by
      rwa [show 32 + 8 * (0 + (i - 32) / 8) + (i - 32) % 8 = i by omega]⟩] at hbs
    cases hbs
  | error f =>
    obtain ⟨t, ht, herror⟩ := readPayload_error hr
    obtain ⟨m, hm, herror⟩ := readLsbs_error herror
    rw [Memory.uninitialised_of_readAt (by omega) herror]

/-- An output that MSG has no room for faults, whatever MSG holds (log 16). -/
theorem writeCharacters_overflow {size j : Nat} {bs : List Byte} {msg : Memory Word} (h : size < j + bs.length)
    (hpos : 0 < bs.length) : writeCharacters size j bs msg = .error .outOfRange := by
  cases hw : writeCharacters size j bs msg with
  | ok msg' =>
    obtain ⟨hlt, -⟩ := (writeCharacters_ok hw).1 (bs.length - 1) (by omega)
    omega
  | error f => rw [(writeCharacters_error hw).2]

/-! ## extractPayload -/

/-- The end of a successful DECODE with the header `L`, whose output left `msg` in MSG (42_decoder.md R169). -/
def decoded (L : Word) (msg : Memory Word) (s : State) : State :=
  completeCommand { s with msg := msg, msgLen := BitVec.ofNat 32 (L.toNat / 8), bitLen := L }

theorem extractPayload_of_payloadFault {L : Word} {s : State} {f : Fault}
    (h : readPayload s.cfg.pixBytes s.pix 0 (L.toNat / 8) = .error f) : extractPayload L s = .fault f := by
  simp only [extractPayload, byteBits, h]

theorem extractPayload_of_outputFault {L : Word} {s : State} {payload : List Byte} {f : Fault}
    (h : readPayload s.cfg.pixBytes s.pix 0 (L.toNat / 8) = .ok payload)
    (hw : writeCharacters s.cfg.msgWords 0 payload s.msg = .error f) : extractPayload L s = .fault f := by
  simp only [extractPayload, byteBits, h, hw]

theorem extractPayload_of_ok {L : Word} {s : State} {payload : List Byte} {msg' : Memory Word}
    (h : readPayload s.cfg.pixBytes s.pix 0 (L.toNat / 8) = .ok payload)
    (hw : writeCharacters s.cfg.msgWords 0 payload s.msg = .ok msg') :
    extractPayload L s = .next (decoded L msg' s) := by
  simp only [extractPayload, byteBits, h, hw, decoded]

theorem extractPayload_fault {L : Word} {s : State} {f : Fault} (h : extractPayload L s = .fault f) :
    readPayload s.cfg.pixBytes s.pix 0 (L.toNat / 8) = .error f ∨
    ∃ payload, payload.length = L.toNat / 8 ∧ writeCharacters s.cfg.msgWords 0 payload s.msg = .error f := by
  cases hp : readPayload s.cfg.pixBytes s.pix 0 (L.toNat / 8) with
  | error g =>
    rw [extractPayload_of_payloadFault hp] at h
    cases h
    exact .inl rfl
  | ok payload =>
    cases hw : writeCharacters s.cfg.msgWords 0 payload s.msg with
    | error g =>
      rw [extractPayload_of_outputFault hp hw] at h
      cases h
      exact .inr ⟨payload, ((readPayload_eq_ok_iff ..).1 hp).1, hw⟩
    | ok msg' =>
      rw [extractPayload_of_ok hp hw] at h
      cases h

/-- With the same payload to read, the output faults alike or writes the same characters, whatever MSG held. -/
theorem extractPayload_congr {L : Word} {s₁ s₂ : State} (hcfg : s₂.cfg = s₁.cfg)
    (hpayload : readPayload s₂.cfg.pixBytes s₂.pix 0 (L.toNat / 8) =
      readPayload s₁.cfg.pixBytes s₁.pix 0 (L.toNat / 8)) :
    (∃ f, extractPayload L s₁ = .fault f ∧ extractPayload L s₂ = .fault f) ∨
    (∃ payload msg₁ msg₂, payload.length = L.toNat / 8 ∧
      writeCharacters s₁.cfg.msgWords 0 payload s₁.msg = .ok msg₁ ∧
      writeCharacters s₁.cfg.msgWords 0 payload s₂.msg = .ok msg₂ ∧
      extractPayload L s₁ = .next (decoded L msg₁ s₁) ∧
      extractPayload L s₂ = .next (decoded L msg₂ s₂)) := by
  cases hp : readPayload s₁.cfg.pixBytes s₁.pix 0 (L.toNat / 8) with
  | error f =>
    exact .inl ⟨f, extractPayload_of_payloadFault hp, extractPayload_of_payloadFault (hpayload.trans hp)⟩
  | ok payload =>
    have hp₂ := hpayload.trans hp
    by_cases hroom : payload.length ≤ s₁.cfg.msgWords
    · have htotal (msg : Memory Word) := writeCharacters_total (size := s₁.cfg.msgWords) (j := 0) (msg := msg)
        (by rwa [Nat.zero_add])
      obtain ⟨msg₁, hw₁⟩ := htotal s₁.msg
      obtain ⟨msg₂, hw₂⟩ := htotal s₂.msg
      exact .inr ⟨payload, msg₁, msg₂, ((readPayload_eq_ok_iff ..).1 hp).1, hw₁, hw₂, extractPayload_of_ok hp hw₁,
        extractPayload_of_ok hp₂ (by rwa [hcfg])⟩
    · have hover (msg : Memory Word) := writeCharacters_overflow (size := s₁.cfg.msgWords) (j := 0) (bs := payload)
        (msg := msg) (by omega) (by omega)
      exact .inl ⟨.outOfRange, extractPayload_of_outputFault hp (hover _),
        extractPayload_of_outputFault hp₂ (by rw [hcfg, hover])⟩

/-! ## The checks -/

/-- The checks before the output depend on the pixel count and the header alone (42_decoder.md R170). -/
theorem engineDecode_checks {s₁ s₂ : State} (hpixels : s₂.engine.pixelCount = s₁.engine.pixelCount)
    (hheader : 32 ≤ s₁.engine.pixelCount →
      readHeader s₂.cfg.pixBytes s₂.pix = readHeader s₁.cfg.pixBytes s₁.pix) :
    (∃ f, 32 ≤ s₁.engine.pixelCount ∧ readHeader s₁.cfg.pixBytes s₁.pix = .error f ∧
      engineDecode s₁ = .fault f ∧ engineDecode s₂ = .fault f) ∨
    (∃ e, engineDecode s₁ = .next (raiseError e s₁) ∧ engineDecode s₂ = .next (raiseError e s₂)) ∨
    (∃ L, readHeader s₁.cfg.pixBytes s₁.pix = .ok L ∧ L.toNat % 8 = 0 ∧ 32 + L.toNat ≤ s₁.engine.pixelCount ∧
      engineDecode s₁ = extractPayload L s₁ ∧ engineDecode s₂ = extractPayload L s₂) := by
  by_cases hP : s₁.engine.pixelCount < 32
  · exact .inr (.inl ⟨.truncatedHeader, engineDecode_truncated hP, engineDecode_truncated (hpixels ▸ hP)⟩)
  have hP := Nat.le_of_not_lt hP
  have hP₂ : 32 ≤ s₂.engine.pixelCount := hpixels ▸ hP
  cases hL : readHeader s₁.cfg.pixBytes s₁.pix with
  | error f =>
    exact .inl ⟨f, hP, rfl, engineDecode_headerFault hP hL, engineDecode_headerFault hP₂ ((hheader hP).trans hL)⟩
  | ok L =>
    rw [engineDecode_header hP hL, engineDecode_header hP₂ ((hheader hP).trans hL), hpixels]
    split
    · exact .inr (.inl ⟨.malformedLength, rfl, rfl⟩)
    · next haligned =>
      split
      · exact .inr (.inl ⟨.capacityExceeded, rfl, rfl⟩)
      · next hcap => exact .inr (.inr ⟨L, rfl, not_not.1 haligned, Nat.le_of_not_lt hcap, rfl, rfl⟩)

end Sys2Proof.Machine

namespace Sys2Proof.Spec

open Sys2Proof.Machine

/-- What a read of LSBs gives is the bits of the red bytes. -/
theorem eq_redBits_of_readLsbs {size : Nat} {pix : Memory Byte} {i k : Nat} {bs : List Bool}
    (h : readLsbs size pix i k = .ok bs) : bs = redBits pix i k := by
  obtain ⟨hlen, hall⟩ := (readLsbs_eq_ok_iff ..).1 h
  refine List.ext_getElem (by simpa using hlen) fun t ht _ => ?_
  obtain ⟨-, hbit⟩ := hall t (hlen ▸ ht)
  rw [List.getElem?_eq_getElem ht] at hbit
  obtain ⟨v, hv, hb⟩ := Option.map_eq_some_iff.1 hbit
  simp [redBits, redBit, hv, ← hb]

/-- The header read is the one the red bytes spell. -/
theorem toNat_of_readHeader {size : Nat} {pix : Memory Byte} {L : Word} (h : readHeader size pix = .ok L) :
    L.toNat = headerSum pix := by
  obtain ⟨bs, hbs, rfl⟩ := (readHeader_eq_ok_iff ..).1 h
  rw [eq_redBits_of_readLsbs hbs, assembleMsb_redBits_header, toNat_ofNat_headerSum]

theorem le_decodeReads {s : State} (hP : 32 ≤ pixels s) : 32 ≤ decodeReads s := by
  unfold decodeReads
  rw [if_neg (Nat.not_lt.2 hP)]
  split <;> omega

theorem decodeReads_of_header {s : State} (haligned : headerSum s.pix % 8 = 0)
    (hcap : 32 + headerSum s.pix ≤ pixels s) : decodeReads s = 32 + headerSum s.pix := by
  unfold decodeReads
  rw [if_neg (by omega), if_pos ⟨haligned, hcap⟩]

/-- The engine's DECODE on two states with the same sizes and dimensions that agree on the red bytes it reads: the same
fault, the same error, or the same characters (42_decoder.md R171). -/
theorem engineDecode_congr {s₁ s₂ : State} (hpixels : s₂.engine.pixelCount = s₁.engine.pixelCount)
    (hcfg : s₂.cfg = s₁.cfg) (hred : ∀ i < decodeReads s₁, s₂.pix.read (4 * i) = s₁.pix.read (4 * i)) :
    (∃ f, engineDecode s₁ = .fault f ∧ engineDecode s₂ = .fault f) ∨
    (∃ e, engineDecode s₁ = .next (raiseError e s₁) ∧ engineDecode s₂ = .next (raiseError e s₂)) ∨
    (∃ (L : Word) (payload : List Byte) (msg₁ msg₂ : Memory Word), payload.length = L.toNat / 8 ∧
      writeCharacters s₁.cfg.msgWords 0 payload s₁.msg = .ok msg₁ ∧
      writeCharacters s₁.cfg.msgWords 0 payload s₂.msg = .ok msg₂ ∧
      engineDecode s₁ = .next (decoded L msg₁ s₁) ∧
      engineDecode s₂ = .next (decoded L msg₂ s₂)) := by
  have hheader (hP : 32 ≤ s₁.engine.pixelCount) :
      readHeader s₂.cfg.pixBytes s₂.pix = readHeader s₁.cfg.pixBytes s₁.pix := by
    rw [hcfg]
    exact readHeader_congr fun i hi => hred i (hi.trans_le (le_decodeReads hP))
  rcases engineDecode_checks hpixels hheader with ⟨f, -, -, h₁, h₂⟩ | herror | ⟨L, hL, haligned, hcap, h₁, h₂⟩
  · exact .inl ⟨f, h₁, h₂⟩
  · exact .inr (.inl herror)
  · have hsum := toNat_of_readHeader hL
    have hreads := decodeReads_of_header (s := s₁) (hsum ▸ haligned) (hsum ▸ hcap)
    have hpayload : readPayload s₂.cfg.pixBytes s₂.pix 0 (L.toNat / 8) =
        readPayload s₁.cfg.pixBytes s₁.pix 0 (L.toNat / 8) := by
      rw [hcfg]
      exact readPayload_congr fun i _ hi => hred i (by omega)
    rw [h₁, h₂]
    exact (extractPayload_congr hcfg hpayload).imp_right fun ⟨payload, msg₁, msg₂, h⟩ =>
      .inr ⟨L, payload, msg₁, msg₂, h⟩

/-- Two outputs of the same characters agree on the words they write. -/
theorem read_writeCharacters_congr {size : Nat} {payload : List Byte} {m₁ m₂ msg₁ msg₂ : Memory Word}
    (h₁ : writeCharacters size 0 payload m₁ = .ok msg₁) (h₂ : writeCharacters size 0 payload m₂ = .ok msg₂) {j : Nat}
    (hj : j < payload.length) : msg₂.read j = msg₁.read j := by
  obtain ⟨-, hread₁⟩ := (writeCharacters_ok h₁).1 j hj
  obtain ⟨-, hread₂⟩ := (writeCharacters_ok h₂).1 j hj
  rw [Nat.zero_add] at hread₁ hread₂
  rw [hread₁, hread₂]

end Sys2Proof.Spec
end

section
/-! SUPPORT. The engine of a block that meets the invariant faults on unwritten locations only (60_exceptions.md R218,
70_reset_and_hazards.md R249). -/

namespace Sys2Proof.Machine

theorem State.Inv.pixels_le {s : State} (h : s.Inv) (hp : s.engine.pending ≠ none) :
    4 * s.engine.pixelCount ≤ s.cfg.pixBytes := h.geometry hp

theorem State.Inv.engineEncode_fault {s : State} {f : Fault} (hinv : s.Inv) (hp : s.engine.pending = some .encode)
    (h : engineEncode s = .fault f) : f = .uninitialised := by
  have hgeom := hinv.pixels_le (by simp [hp])
  have hmsg := hinv.message hp
  rcases engineEncode_checks (s₁ := s) (s₂ := s) rfl rfl with
    ⟨g, htext, hg, -⟩ | ⟨e, he, -⟩ | ⟨payload, -, hcap, hembed, -⟩
  · obtain rfl : g = f := Host.Outcome.fault.inj (hg.symm.trans h)
    obtain ⟨j, hj, hread⟩ := readRange_error htext
    exact Memory.uninitialised_of_readAt (by omega) hread
  · rw [he] at h
    cases h
  · obtain ⟨t, ht, hread⟩ := writeLsbs_error (embedPayload_fault (hembed ▸ h))
    rw [length_frame] at ht
    exact Memory.uninitialised_of_readAt (by omega) hread

theorem State.Inv.engineDecode_fault {s : State} {f : Fault} (hinv : s.Inv) (hp : s.engine.pending = some .decode)
    (h : engineDecode s = .fault f) : f = .uninitialised := by
  have hgeom := hinv.pixels_le (by simp [hp])
  rcases engineDecode_checks (s₁ := s) (s₂ := s) rfl fun _ => rfl with
    ⟨g, hP, hheader, hg, -⟩ | ⟨e, he, -⟩ | ⟨L, -, haligned, hcap, hextract, -⟩
  · obtain rfl : g = f := Host.Outcome.fault.inj (hg.symm.trans h)
    obtain ⟨t, ht, hread⟩ := readLsbs_error (readHeader_error hheader)
    exact Memory.uninitialised_of_readAt (by omega) hread
  · rw [he] at h
    cases h
  · rcases extractPayload_fault (hextract ▸ h) with hpayload | ⟨payload, hlen, hwrite⟩
    · obtain ⟨j, hj, hbits⟩ := readPayload_error hpayload
      obtain ⟨t, ht, hread⟩ := readLsbs_error hbits
      exact Memory.uninitialised_of_readAt (by omega) hread
    · obtain ⟨hover, -⟩ := writeCharacters_error hwrite
      have hroom := Spec.payload_le_msgWords hinv.cfg_wf hgeom hcap
      omega

end Sys2Proof.Machine
end

section
/-! SUPPORT. The proofs of the statements on what ENCODE and DECODE read, leave alone, depend on and fault on. -/

namespace Sys2Proof.Proofs

open Sys2Proof Sys2Proof.Machine Sys2Proof.Spec

/-- Settles O22: the checks pass, and the write phase meets the unwritten byte inside PIX. -/
theorem encodeOverUnwrittenPixelFaults : Obligations.EncodeOverUnwrittenPixelFaults := by
  intro s text hp ht hpos hc hfit hcap hunwritten
  have hgeom := hp.pixels_le
  have hwithin : ¬(2 ^ 32 - 1 < text.length * 8 ∨ s.engine.pixelCount < 32 + text.length * 8) := by
    rw [pixelCount_eq_pixels]
    omega
  rw [hp.exec_eq, engineEncode_valid (ht.n_ne_zero hpos) (hp.readText_eq_ok ht) hc, if_neg hwithin]
  refine embedPayload_of_error (writeLsbs_uninitialised ?_ ?_)
  · rw [length_frame, length_bytes]
    omega
  · simpa using hunwritten

/-- Settles O23: an error leaves PIX alone; the write phase changes bit 0 of its carriers and no other byte. -/
theorem encodeTouchesOnlyRedLsbsOfItsFrame : Obligations.EncodeTouchesOnlyRedLsbsOfItsFrame := by
  intro s t hp hexec a
  rcases exec_pending_next (c := .encode) hp hexec with
    ⟨e, rfl⟩ | ⟨-, pix', payload, hwrite, hlen, -, -, rfl⟩ | ⟨hc, -⟩
  · exact .inl rfl
  · obtain ⟨hbits, hrest, -, -⟩ := writeLsbs_ok hwrite
    simp only [length_frame, hlen, Nat.zero_add] at hbits hrest
    by_cases ha : ∃ i < 32 + 8 * s.engine.n.toNat, a = 4 * i
    · obtain ⟨i, hi, rfl⟩ := ha
      obtain ⟨old, b, -, hold, -, hnew⟩ := hbits i hi
      exact .inr ⟨i, hi, rfl, old, setLsb old b, hold, hnew, setLsb_upper old b⟩
    · exact .inl (hrest a fun i hi hai => ha ⟨i, hi, hai⟩)
  · cases hc

/-- ENCODE on two states that agree on its footprint (41_encoder.md R143). -/
theorem encode_determined {s₁ s₂ t₁ : State} (hp : s₁.engine.pending = some .encode) (hengine : s₂.engine = s₁.engine)
    (hcfg : s₂.cfg = s₁.cfg) (hmsg : ∀ j < s₁.engine.n.toNat, s₂.msg.read j = s₁.msg.read j)
    (hred : ∀ i < 32 + 8 * s₁.engine.n.toNat, s₂.pix.read (4 * i) = s₁.pix.read (4 * i))
    (h : exec .encode s₁ = .next t₁) :
    ∃ t₂, exec .encode s₂ = .next t₂ ∧ t₂.status = t₁.status ∧ (t₁.status.done = true → t₂.bitLen = t₁.bitLen) ∧
      ∀ i < 32 + 8 * s₁.engine.n.toNat, t₂.pix.read (4 * i) = t₁.pix.read (4 * i) := by
  have htext : s₂.readText = s₁.readText := by
    rw [State.readText, State.readText, hcfg, hengine]
    exact readRange_congr (by simpa using hmsg)
  rw [exec_encode, execEncode_pending hp] at h
  rw [exec_encode, execEncode_pending (hengine ▸ hp)]
  rcases engineEncode_checks hengine htext with ⟨f, -, h₁, -⟩ | ⟨e, h₁, h₂⟩ | ⟨payload, hlen, -, h₁, h₂⟩
  · rw [h₁] at h
    cases h
  · obtain rfl : raiseError e s₁ = t₁ := Host.Outcome.next.inj (h₁.symm.trans h)
    exact ⟨_, h₂, rfl, nofun, hred⟩
  · obtain ⟨p', hwrite₁, rfl⟩ := embedPayload_next (h₁ ▸ h)
    obtain ⟨q', hwrite₂, hagree⟩ := writeLsbs_congr (q := s₂.pix) (by simpa [hlen] using hred) hwrite₁
    rw [h₂]
    refine ⟨_, embedPayload_of_ok (by rwa [hcfg]), rfl, fun _ => rfl, ?_⟩
    simpa [hlen] using hagree

/-- ENCODE again on its own result, with the same text, writes the bits that are already there. -/
theorem encode_idempotent {s t : State} (hinv : s.Inv) (hp : s.engine.pending = some .encode)
    (h : exec .encode s = .next t) (hdone : t.status.done = true) :
    exec .encode { t with status := s.status, engine := s.engine } = .next t := by
  have ht : t.cfg = s.cfg ∧ t.msg = s.msg := by
    rcases exec_pending_next (c := .encode) hp h with ⟨e, rfl⟩ | ⟨-, pix', payload, -, -, -, -, rfl⟩ | ⟨hc, -⟩
    · exact ⟨rfl, rfl⟩
    · exact ⟨rfl, rfl⟩
    · cases hc
  have htext : ({ t with status := s.status, engine := s.engine } : State).readText = s.readText := by
    simp only [State.readText, ht]
  rw [exec_encode, execEncode_pending hp] at h
  rw [exec_encode, execEncode_pending (s := { t with status := s.status, engine := s.engine }) hp]
  rcases engineEncode_checks (s₁ := s) (s₂ := { t with status := s.status, engine := s.engine }) rfl htext with
    ⟨f, -, h₁, -⟩ | ⟨e, h₁, -⟩ | ⟨payload, -, -, h₁, h₂⟩
  · rw [h₁] at h
    cases h
  · obtain rfl : raiseError e s = t := Host.Outcome.next.inj (h₁.symm.trans h)
    cases hdone
  · obtain ⟨pix', hwrite, rfl⟩ := embedPayload_next (h₁ ▸ h)
    exact h₂.trans (embedPayload_of_ok (writeLsbs_idempotent hinv.pix_wf hwrite))

/-- Settles O24, by its two halves. -/
theorem encodeIsDeterminedByItsFootprintAndIdempotent : Obligations.EncodeIsDeterminedByItsFootprintAndIdempotent :=
  ⟨fun _ _ _ => encode_determined, fun _ _ => encode_idempotent⟩

/-- Settles O29: the read of the header, or of the payload, meets the unwritten byte inside PIX. -/
theorem decodeOfUnwrittenPixelFaults : Obligations.DecodeOfUnwrittenPixelFaults := by
  intro s hp hP
  have hgeom := hp.pixels_le
  refine ⟨fun hunwritten => ?_, fun hred haligned hcap ⟨i, hi, hnone⟩ => ?_⟩
  · rw [hp.exec_eq]
    exact engineDecode_headerFault hP
      (readHeader_of_error (readLsbs_uninitialised (by omega) (by simpa using hunwritten)))
  · rw [hp.exec_of_header hP hred, if_neg (not_not.2 haligned), if_neg (Nat.not_lt.2 hcap)]
    have hL := toNat_ofNat_headerSum s.pix
    have hge : 32 ≤ i := by
      by_contra hlt
      obtain ⟨v, hv⟩ := hred i (by omega)
      rw [hnone] at hv
      cases hv
    exact extractPayload_of_payloadFault (readPayload_uninitialised (by omega) ⟨i, hge, by omega, hnone⟩)

/-- Settles O31: the two engine transitions fault alike, raise the same error or write the same characters. -/
theorem decodeReadsOnlyItsRedBytes : Obligations.DecodeReadsOnlyItsRedBytes := by
  intro s₁ s₂ hp₁ hp₂ hw hh hcfg hred
  have hpixels : s₂.engine.pixelCount = s₁.engine.pixelCount := by rw [Engine.pixelCount, Engine.pixelCount, hw, hh]
  rw [exec_decode, exec_decode, execDecode_pending hp₁, execDecode_pending hp₂]
  rcases engineDecode_congr hpixels hcfg hred with
    ⟨f, h₁, h₂⟩ | ⟨e, h₁, h₂⟩ | ⟨L, payload, msg₁, msg₂, hlen, hwrite₁, hwrite₂, h₁, h₂⟩
  all_goals rw [h₁, h₂]
  · refine ⟨fun _ => id, fun t ht => ?_⟩
    cases ht
  · refine ⟨nofun, fun t₁ ht => ?_⟩
    obtain rfl := Host.Outcome.next.inj ht
    exact ⟨rfl, _, rfl, rfl, rfl, nofun⟩
  · refine ⟨nofun, fun t₁ ht => ?_⟩
    obtain rfl := Host.Outcome.next.inj ht
    refine ⟨rfl, _, rfl, rfl, rfl, fun _ => ⟨rfl, rfl, fun j hj => read_writeCharacters_congr hwrite₁ hwrite₂ ?_⟩⟩
    rw [hlen]
    exact hj.trans_le (Nat.mod_le _ _)

/-- With another PIX the command faults alike, or ends alike but for PIX, where the red bytes are the same
(40_framer.md R117). -/
def SameWithPix (c : Command) (s : State) (pix : Memory Byte) : Prop :=
  (∀ f, exec c.instr s = .fault f → exec c.instr { s with pix := pix } = .fault f) ∧
  (∀ t, exec c.instr s = .next t →
    ∃ pix', exec c.instr { s with pix := pix } = .next { t with pix := pix' } ∧
      ∀ a, a % 4 = 0 → pix'.read a = t.pix.read a)

/-- ENCODE reads no byte of PIX but red bytes. -/
theorem encode_sameWithPix {s : State} {pix : Memory Byte} (hp : s.engine.pending = some .encode)
    (hred : ∀ a, a % 4 = 0 → pix.read a = s.pix.read a) :
    SameWithPix .encode s pix := by
  rw [SameWithPix, Command.instr, exec_encode, exec_encode, execEncode_pending hp,
    execEncode_pending (s := { s with pix := pix }) hp]
  rcases engineEncode_checks (s₁ := s) (s₂ := { s with pix := pix }) rfl rfl with
    ⟨f, -, h₁, h₂⟩ | ⟨e, h₁, h₂⟩ | ⟨payload, -, -, h₁, h₂⟩
  all_goals rw [h₁, h₂]
  · refine ⟨fun _ => id, fun t ht => ?_⟩
    cases ht
  · refine ⟨nofun, fun t ht => ?_⟩
    obtain rfl := Host.Outcome.next.inj ht
    exact ⟨pix, rfl, hred⟩
  · refine ⟨fun f hf => ?_, fun t ht => ?_⟩
    · exact embedPayload_of_error (writeLsbs_error_congr (fun t _ => hred _ (by omega)) (embedPayload_fault hf))
    · obtain ⟨p', hwrite, rfl⟩ := embedPayload_next ht
      obtain ⟨q', hwrite', hagree⟩ := writeLsbs_congr_red hred hwrite
      exact ⟨q', embedPayload_of_ok (s := { s with pix := pix }) hwrite', hagree⟩

/-- DECODE reads no byte of PIX but red bytes. -/
theorem decode_sameWithPix {s : State} {pix : Memory Byte} (hp : s.engine.pending = some .decode)
    (hred : ∀ a, a % 4 = 0 → pix.read a = s.pix.read a) :
    SameWithPix .decode s pix := by
  rw [SameWithPix, Command.instr, exec_decode, exec_decode, execDecode_pending hp,
    execDecode_pending (s := { s with pix := pix }) hp]
  rcases engineDecode_congr (s₁ := s) (s₂ := { s with pix := pix }) rfl rfl fun i _ => hred _ (by omega) with
    ⟨f, h₁, h₂⟩ | ⟨e, h₁, h₂⟩ | ⟨L, payload, msg₁, msg₂, -, hwrite₁, hwrite₂, h₁, h₂⟩
  all_goals rw [h₁, h₂]
  · refine ⟨fun _ => id, fun t ht => ?_⟩
    cases ht
  · refine ⟨nofun, fun t ht => ?_⟩
    obtain rfl := Host.Outcome.next.inj ht
    exact ⟨pix, rfl, hred⟩
  · obtain rfl : msg₁ = msg₂ := Except.ok.inj (hwrite₁.symm.trans hwrite₂)
    refine ⟨nofun, fun t ht => ?_⟩
    obtain rfl := Host.Outcome.next.inj ht
    exact ⟨pix, rfl, hred⟩

/-- Settles O33: a command does the same with either PIX, and no command touches a byte that is no multiple of 4, in the
one as in the other. -/
theorem commandsIgnoreGreenBlueAndAlpha : Obligations.CommandsIgnoreGreenBlueAndAlpha := by
  intro s c pix hp hred
  have hsame : SameWithPix c s pix := by
    cases c with
    | encode => exact encode_sameWithPix hp hred
    | decode => exact decode_sameWithPix hp hred
  obtain ⟨hfault, hnext⟩ := hsame
  refine ⟨hfault, fun t hexec => ?_⟩
  obtain ⟨pix', hexec', hagree⟩ := hnext t hexec
  obtain ⟨-, -, -, -, hkeep⟩ := exec_frame hexec
  obtain ⟨-, -, -, -, hkeep'⟩ := exec_frame hexec'
  exact ⟨hkeep, pix', hexec', hagree, hkeep'⟩

/-- Settles O37, command by command. -/
theorem engineFaultsOnlyOnUnwrittenLocations : Obligations.EngineFaultsOnlyOnUnwrittenLocations := by
  intro s c f hinv hp hexec
  cases c with
  | encode => exact hinv.engineEncode_fault hp ((execEncode_pending hp).symm.trans hexec)
  | decode => exact hinv.engineDecode_fault hp ((execDecode_pending hp).symm.trans hexec)

end Sys2Proof.Proofs
end

section
/-! SUPPORT. One word of MSG, written and read by the host while BUSY = 0 (43_host_interface.md R198), and an access
that is ill formed (20_memory.md R56, R58). -/

namespace Sys2Proof.Machine

theorem hostMsgWrite_inRange {s : State} {j : Nat} (hj : j < s.cfg.msgWords) (v : Word) :
    hostMsgWrite j v s = .ok { s with msg := s.msg.write j v } := by
  simp only [hostMsgWrite, (Memory.writeAt_eq_ok_iff ..).2 ⟨hj, rfl⟩]

theorem hostMsgWrite_outOfRange {s : State} {j : Nat} (hj : s.cfg.msgWords ≤ j) (v : Word) :
    hostMsgWrite j v s = .error .outOfRange := by
  simp only [hostMsgWrite, (Memory.writeAt_eq_error_iff ..).2 ⟨hj, rfl⟩]

theorem hostMsgRead_written {s : State} {j : Nat} {v : Word} (hj : j < s.cfg.msgWords) (hv : s.msg.read j = some v) :
    hostMsgRead j s = .ok { s with readData := some v } := by
  simp only [hostMsgRead, (Memory.readAt_eq_ok_iff ..).2 ⟨hj, hv⟩, returnToHost]

theorem hostMsgRead_unwritten {s : State} {j : Nat} (hj : j < s.cfg.msgWords) (hv : s.msg.read j = none) :
    hostMsgRead j s = .error .uninitialised := by
  simp only [hostMsgRead, (Memory.readAt_eq_error_iff ..).2 (.inl ⟨hj, hv, rfl⟩)]

theorem hostMsgRead_outOfRange {s : State} {j : Nat} (hj : s.cfg.msgWords ≤ j) :
    hostMsgRead j s = .error .outOfRange := by
  simp only [hostMsgRead, (Memory.readAt_eq_error_iff ..).2 (.inr ⟨hj, rfl⟩)]

/-! ## Ill-formed accesses -/

theorem hostReg_badWidth {o w : Nat} {k : Reg → Host.Outcome State Fault Refusal} (hw : w ≠ 32) :
    hostReg o w k = .fault .badWidth := if_pos hw

theorem hostReg_outOfRange {o : Nat} {k : Reg → Host.Outcome State Fault Refusal} (ho : 0x1C < o ∨ o % 4 ≠ 0) :
    hostReg o 32 k = .fault .outOfRange := by
  simp [hostReg, (Reg.ofOffset_eq_none_iff o).2 ho]

theorem hostMemory_badWidth {native w : Nat} {s : State} {k : Except Fault State} (hb : s.status.busy = false)
    (hw : w ≠ native) : hostMemory native w s k = .fault .badWidth := by
  simp [hostMemory, hb, hw]

/-- An offset that fails either check on its place names no register (10_state.md R33). -/
theorem off_reg_of_not_place {o : Nat} (h : (o % 4 == 0 && decide (o ≤ 0x1C)) = false) : 0x1C < o ∨ o % 4 ≠ 0 :=
  (Bool.and_eq_false_iff.1 h).symm.imp (fun hr => Nat.lt_of_not_le (of_decide_eq_false hr)) ne_of_beq_false

theorem hostAccess_badWidth {a : Access} {s : State} (hb : s.status.busy = false) (hw : a.widthOk = false) :
    hostAccess a s = .fault .badWidth := by
  cases a with
  | regWrite | regRead => exact hostReg_badWidth (ne_of_beq_false hw)
  | pixWrite | pixRead | msgWrite | msgRead => exact hostMemory_badWidth hb (ne_of_beq_false hw)

theorem hostAccess_outOfRange {a : Access} {s : State} (hb : s.status.busy = false) (hw : a.widthOk = true)
    (hplace : (a.alignedOk && a.rangeOk s.cfg) = false) : hostAccess a s = .fault .outOfRange := by
  cases a with
  | regWrite o w v =>
    obtain rfl : w = 32 := eq_of_beq hw
    exact hostReg_outOfRange (off_reg_of_not_place hplace)
  | regRead o w =>
    obtain rfl : w = 32 := eq_of_beq hw
    exact hostReg_outOfRange (off_reg_of_not_place hplace)
  | pixWrite p w v =>
    obtain rfl : w = 8 := eq_of_beq hw
    have hout : s.cfg.pixBytes ≤ p := Nat.le_of_not_lt (of_decide_eq_false hplace)
    rw [hostAccess, hostMemory_idle hb, hostPixWrite_outOfRange hout, orFault]
  | pixRead p w =>
    obtain rfl : w = 8 := eq_of_beq hw
    have hout : s.cfg.pixBytes ≤ p := Nat.le_of_not_lt (of_decide_eq_false hplace)
    rw [hostAccess, hostMemory_idle hb, hostPixRead_outOfRange hout, orFault]
  | msgWrite j w v =>
    obtain rfl : w = 32 := eq_of_beq hw
    have hout : s.cfg.msgWords ≤ j := Nat.le_of_not_lt (of_decide_eq_false hplace)
    rw [hostAccess, hostMemory_idle hb, hostMsgWrite_outOfRange hout, orFault]
  | msgRead j w =>
    obtain rfl : w = 32 := eq_of_beq hw
    have hout : s.cfg.msgWords ≤ j := Nat.le_of_not_lt (of_decide_eq_false hplace)
    rw [hostAccess, hostMemory_idle hb, hostMsgRead_outOfRange hout, orFault]

/-! ## POLL -/

theorem pollOnce_idle {rest : List Input} {s : State} (hb : s.status.busy = false) :
    pollOnce rest s = { s.withInputs rest with readData := some s.status.word } := by
  simp [pollOnce, hb, returnToHost, State.readReg]

theorem pollOnce_busy {rest : List Input} {s : State} (hb : s.status.busy = true) :
    pollOnce rest s = { s with readData := some s.status.word } := by
  simp [pollOnce, hb, returnToHost, State.readReg]

end Sys2Proof.Machine

namespace Sys2Proof.Spec

open Sys2Proof.Machine

theorem HostMove.msg_eq {s s' : State} {i : Input} (h : HostMove s i s') : s'.msg = s.msg := by
  obtain ⟨is, ts, rfl⟩ := h.eq_with_inputs_turns
  rfl

/-- A POLL is performed on the state `u` that has only lost the turn. -/
theorem HostMove.step_poll {s s' : State} (h : HostMove s .poll s') :
    ∃ u rest, u = { s' with inputs := s.inputs } ∧ s' = u.withInputs rest ∧ step s = .next (pollOnce rest u) := by
  obtain ⟨hf, rest, hin, ⟨hp, rfl⟩ | ⟨hp, ts, ht, rfl⟩⟩ := h
  · exact ⟨s, rest, rfl, rfl, (step_idle hf hp).trans (hostTurn_poll hin)⟩
  · obtain ⟨c, hc⟩ := Option.ne_none_iff_exists'.1 hp
    exact ⟨s.withTurns ts, rest, rfl, rfl, (step_host hf hc ht).trans (hostTurn_poll (s := s.withTurns ts) hin)⟩

theorem EngineMove.step_eq {s s' : State} {c : Command} (h : EngineMove s c s') : step s = exec c.instr s' := by
  obtain ⟨hf, hp, ⟨ht, rfl⟩ | ⟨ts, ht, rfl⟩⟩ := h
  · exact step_engine_last hf hp ht
  · exact step_engine hf hp ht

/-- A host's write of a command's word, while BUSY = 0, is that command. -/
theorem HostMove.step_decoded {s s' : State} {w : Word} {i : Instr} (h : HostMove s (commandInput w) s')
    (hb : s.status.busy = false) (hw : decode w = .ok i) : step s = exec i s' := by
  obtain rfl := eq_encode_of_decode hw
  rw [h.step_command, hostCommand_encode (h.status_eq ▸ hb)]

/-- A word placed in an idle block is the host's next move, and taking it leaves the block as it was (log 4). -/
theorem hostMove_withFetchWord {s : State} (hf : s.faulted = none) (hp : s.engine.pending = none) (w : Word) :
    HostMove (s.withFetchWord 32 w.toNat) (commandInput w) s := by
  have hword : BitVec.ofNat 32 (w.toNat % 2 ^ 32) = w := by
    rw [Nat.mod_eq_of_lt w.isLt, BitVec.ofNat_toNat, BitVec.setWidth_eq]
  refine ⟨hf, s.inputs, ?_, .inl ⟨hp, ?_⟩⟩
  · rw [State.withFetchWord, hword]
  · simp only [State.withFetchWord, hp]

end Sys2Proof.Spec
end

section
/-! SUPPORT. An idle block does the same whatever its engine has latched (10_state.md R40, log 7). -/

namespace Sys2Proof.Spec

open Sys2Proof.Machine

/-- The second outcome is the first, but for an engine with nothing pending. -/
def SameButIdleEngine (o o' : Host.Outcome State Fault Refusal) : Prop :=
  (∀ f, o = .fault f → o' = .fault f) ∧
  (∀ t, o = .next t → ∃ e', o' = .next { t with engine := e' } ∧
    (e' = t.engine ∨ (t.engine.pending = none ∧ e'.pending = none)))

theorem SameButIdleEngine.refl (o : Host.Outcome State Fault Refusal) : SameButIdleEngine o o :=
  ⟨fun _ => id, fun t ht => ⟨t.engine, ht, .inl rfl⟩⟩

theorem SameButIdleEngine.next {t : State} {e : Engine} (ht : t.engine.pending = none) (he : e.pending = none) :
    SameButIdleEngine (.next t) (.next { t with engine := e }) := by
  refine ⟨nofun, fun u hu => ?_⟩
  obtain rfl := Host.Outcome.next.inj hu
  exact ⟨e, rfl, .inr ⟨ht, he⟩⟩

/-- With nothing pending, reset has no command to abandon. -/
theorem resetInput_idle {s : State} (hp : s.engine.pending = none) : resetInput s = resetRegisters s := by
  rw [resetInput, abandonCommand_idle s hp]

variable {s : State} {e : Engine}

theorem storeUnlessBusy_sameButIdleEngine {stored : State} (hs : stored.engine.pending = none) (he : e.pending = none) :
    SameButIdleEngine (storeUnlessBusy stored s)
      (storeUnlessBusy { stored with engine := e } { s with engine := e }) := by
  unfold storeUnlessBusy
  cases s.status.busy with
  | true => exact .refl _
  | false => exact .next hs he

theorem exec_sameButIdleEngine (hs : s.engine.pending = none) (he : e.pending = none) (i : Instr) :
    SameButIdleEngine (exec i s) (exec i { s with engine := e }) := by
  cases i with
  | nop => exact storeUnlessBusy_sameButIdleEngine (stored := s) hs he
  | encode =>
    rw [exec_encode, exec_encode, execEncode_idle hs, execEncode_idle (s := { s with engine := e }) he]
    exact .refl _
  | decode =>
    rw [exec_decode, exec_decode, execDecode_idle hs, execDecode_idle (s := { s with engine := e }) he]
    exact .refl _

theorem hostRegWrite_sameButIdleEngine (hs : s.engine.pending = none) (he : e.pending = none) (r : Reg) (v : Word) :
    SameButIdleEngine (hostRegWrite r v s) (hostRegWrite r v { s with engine := e }) := by
  cases r with
  | cmd =>
    simp only [hostRegWrite, hostCommand]
    cases s.status.busy with
    | true => exact .refl _
    | false =>
      cases decode v with
      | error _ => exact .refl _
      | ok i => exact exec_sameButIdleEngine hs he i
  | width => exact storeUnlessBusy_sameButIdleEngine (stored := { s with width := v }) hs he
  | height => exact storeUnlessBusy_sameButIdleEngine (stored := { s with height := v }) hs he
  | msgLen => exact storeUnlessBusy_sameButIdleEngine (stored := { s with msgLen := v }) hs he
  | status | bitLen | reserved18 | reserved1C => exact .next hs he

theorem hostReg_sameButIdleEngine {o w : Nat} {k k' : Reg → Host.Outcome State Fault Refusal}
    (h : ∀ r, SameButIdleEngine (k r) (k' r)) : SameButIdleEngine (hostReg o w k) (hostReg o w k') := by
  unfold hostReg
  split
  · exact .refl _
  · cases Reg.ofOffset o with
    | none => exact .refl _
    | some r => exact h r

/-- A PIX or MSG access does not look at the engine, and leaves it. -/
theorem hostMemory_sameButIdleEngine {native w : Nat} {k k' : Except Fault State}
    (h : SameButIdleEngine (orFault k) (orFault k')) :
    SameButIdleEngine (hostMemory native w s k) (hostMemory native w { s with engine := e } k') := by
  unfold hostMemory
  cases s.status.busy with
  | true => exact .refl _
  | false =>
    rw [if_neg Bool.false_ne_true, if_neg Bool.false_ne_true]
    split
    · exact .refl _
    · exact h

theorem hostAccess_sameButIdleEngine (hs : s.engine.pending = none) (he : e.pending = none) (a : Access) :
    SameButIdleEngine (hostAccess a s) (hostAccess a { s with engine := e }) := by
  cases a with
  | regWrite o w v => exact hostReg_sameButIdleEngine fun r => hostRegWrite_sameButIdleEngine hs he r v
  | regRead o w =>
    refine hostReg_sameButIdleEngine fun r => ?_
    cases r
    all_goals exact .next (t := returnToHost _ s) hs he
  | pixWrite p w v =>
    refine hostMemory_sameButIdleEngine ?_
    simp only [hostPixWrite]
    cases s.pix.writeAt s.cfg.pixBytes p v with
    | error f => exact .refl _
    | ok m => exact .next hs he
  | pixRead p w =>
    refine hostMemory_sameButIdleEngine ?_
    simp only [hostPixRead]
    cases s.pix.readAt s.cfg.pixBytes p with
    | error f => exact .refl _
    | ok v => exact .next (t := returnToHost _ s) hs he
  | msgWrite j w v =>
    refine hostMemory_sameButIdleEngine ?_
    simp only [hostMsgWrite]
    cases s.msg.writeAt s.cfg.msgWords j v with
    | error f => exact .refl _
    | ok m => exact .next hs he
  | msgRead j w =>
    refine hostMemory_sameButIdleEngine ?_
    simp only [hostMsgRead]
    cases s.msg.readAt s.cfg.msgWords j with
    | error f => exact .refl _
    | ok v => exact .next (t := returnToHost _ s) hs he

theorem hostTurn_sameButIdleEngine (hs : s.engine.pending = none) (he : e.pending = none) :
    SameButIdleEngine (hostTurn s) (hostTurn { s with engine := e }) := by
  by_cases hnil : s.inputs = []
  · rw [hostTurn_nil hnil, hostTurn_nil (s := { s with engine := e }) hnil]
    exact .next hs he
  · obtain ⟨i, rest, hin⟩ := List.exists_cons_of_ne_nil hnil
    cases i with
    | access a =>
      rw [hostTurn_access hin, hostTurn_access (s := { s with engine := e }) hin]
      exact hostAccess_sameButIdleEngine (s := s.withInputs rest) hs he a
    | poll =>
      rw [hostTurn_poll hin, hostTurn_poll (s := { s with engine := e }) hin]
      by_cases hb : s.status.busy = true
      · rw [pollOnce_busy hb, pollOnce_busy (s := { s with engine := e }) hb]
        exact .next (t := { s with readData := some s.status.word }) hs he
      · have hb := Bool.eq_false_of_not_eq_true hb
        rw [pollOnce_idle hb, pollOnce_idle (s := { s with engine := e }) hb]
        exact .next (t := { s.withInputs rest with readData := some s.status.word }) hs he
    | reset =>
      rw [hostTurn_reset hin, hostTurn_reset (s := { s with engine := e }) hin,
        resetInput_idle (s := s.withInputs rest) hs,
        resetInput_idle (s := State.withInputs { s with engine := e } rest) he]
      exact .refl _

theorem step_sameButIdleEngine (hs : s.engine.pending = none) (he : e.pending = none) :
    SameButIdleEngine (step s) (step { s with engine := e }) := by
  rcases Option.eq_none_or_eq_some s.faulted with hf | ⟨f, hf⟩
  · rw [step_idle hf hs, step_idle (s := { s with engine := e }) hf he]
    exact hostTurn_sameButIdleEngine hs he
  · rw [step_faulted hf, step_faulted (s := { s with engine := e }) hf]
    exact .refl _

end Sys2Proof.Spec
end

section
/-! SUPPORT. The STATUS word, field by field, and the words a block that meets the invariant shows (30_encoding.md
R84). -/

namespace Sys2Proof.Machine

/-- Every field stands where 30_encoding.md R84 puts it; there are 64 values of the four fields. -/
theorem Status.word_fields (t : Status) :
    t.word.getLsbD 0 = t.busy ∧ t.word.getLsbD 1 = t.done ∧ t.word.getLsbD 2 = t.err ∧ t.word.getLsbD 3 = false ∧
      t.word.extractLsb' 4 3 = t.errcode ∧ t.word.extractLsb' 7 25 = 0 := by
  obtain ⟨busy, done, err, errcode⟩ := t
  revert busy done err errcode
  decide

@[simp] theorem Status.started_word : Status.started.word = 0x00000001#32 := by decide

/-- The words of the five errors. -/
def ErrorKind.statusWord : ErrorKind → Word
  | .emptyPayload => 0x00000014
  | .invalidCharacter => 0x00000024
  | .capacityExceeded => 0x00000034
  | .truncatedHeader => 0x00000044
  | .malformedLength => 0x00000054

@[simp] theorem Status.failed_word (e : ErrorKind) : (Status.failed e).word = e.statusWord := by cases e <;> decide

/-- The eight words of 30_encoding.md R84. -/
theorem Status.legal.word_mem {t : Status} (h : t.legal) :
    t.word ∈ [0x00000000#32, 0x00000001#32, 0x00000002#32, 0x00000014#32, 0x00000024#32, 0x00000034#32, 0x00000044#32,
      0x00000054#32] := by
  rcases h with rfl | rfl | rfl | ⟨e, rfl⟩
  · simp
  · simp
  · simp
  · cases e <;> simp [ErrorKind.statusWord]

/-- At most one flag, and a code of R85 exactly with ERR (10_state.md R24). -/
theorem Status.legal.flags {t : Status} (h : t.legal) :
    ¬(t.busy = true ∧ t.done = true) ∧ ¬(t.busy = true ∧ t.err = true) ∧ ¬(t.done = true ∧ t.err = true) ∧
      (t.errcode ≠ 0 ↔ t.err = true) ∧ t.errcode.toNat ≤ 5 := by
  rcases h with rfl | rfl | rfl | ⟨e, rfl⟩
  · decide
  · decide
  · decide
  · cases e <;> decide

end Sys2Proof.Machine
end

section
/-! SUPPORT. The proofs of the statements on STATUS, the reset values, the host's accesses and moves, the command words
and the memories. -/

namespace Sys2Proof.Proofs

open Sys2Proof Sys2Proof.Machine Sys2Proof.Spec

/-- Settles O45: BUSY is checked first; with BUSY = 0 the access is the memory's own, in its range or not. -/
theorem msgAccessesReadAndWriteOneWord : Obligations.MsgAccessesReadAndWriteOneWord := by
  refine ⟨fun s s' j v hmove => ?_, fun s s' j hmove => ?_⟩
  all_goals rw [hmove.step_access, ← hmove.status_eq, ← hmove.cfg_eq, ← hmove.msg_eq, hostAccess]
  · refine ⟨hostMemory_busy, fun hb hj => ?_, fun hb hj => ⟨s'.msg.write j v, ?_, ?_⟩⟩
    · rw [hostMemory_idle hb, hostMsgWrite_outOfRange hj, orFault]
    · rw [hostMemory_idle hb, hostMsgWrite_inRange hj, orFault]
    · exact ⟨s'.msg.read_write_same j v, fun k hne => s'.msg.read_write_ne v hne⟩
  · refine ⟨hostMemory_busy, fun hb hj => ?_, fun hb hj hv => ?_, fun v hb hj hv => ?_⟩
    · rw [hostMemory_idle hb, hostMsgRead_outOfRange hj, orFault]
    · rw [hostMemory_idle hb, hostMsgRead_unwritten hj hv, orFault]
    · rw [hostMemory_idle hb, hostMsgRead_written hj hv, orFault]

/-- Settles O46: the model looks at the width first, so where both reasons apply it reports BadWidth. -/
theorem illFormedAccessesFault : Obligations.IllFormedAccessesFault := by
  intro s s' a hmove hb
  rw [hmove.step_access, ← hmove.cfg_eq]
  rw [← hmove.status_eq] at hb
  exact ⟨fun hw _ => hostAccess_badWidth hb hw, hostAccess_outOfRange hb, fun hw _ => .inl (hostAccess_badWidth hb hw)⟩

/-- Settles O48: one turn of the loop, with BUSY = 0 and with BUSY = 1. -/
theorem pollReadsStatusUntilNotBusy : Obligations.PollReadsStatusUntilNotBusy := by
  intro s s' hmove
  obtain ⟨u, rest, hu, hs', hstep⟩ := hmove.step_poll
  have hstatus : u.status = s.status := by rw [hu]; exact hmove.status_eq
  rw [hstep, ← hstatus]
  refine ⟨fun hb => ?_, fun hb => ?_⟩
  · rw [pollOnce_idle hb, hs']
  · rw [pollOnce_busy hb, hu]

/-- Settles O9, for each kind of move. -/
theorem stepRunsTheDecodedCommand : Obligations.StepRunsTheDecodedCommand :=
  ⟨fun _ _ _ _ => HostMove.step_decoded, fun _ _ _ => EngineMove.step_eq, fun _ _ _ => HostMove.step_access,
    fun _ w _ hf hp hb hw => (hostMove_withFetchWord hf hp w).step_decoded hb hw⟩

/-- Settles O53: no operation of the outside world's move looks at what an idle engine has latched. -/
theorem latchedOperandsOfAnIdleEngineAreHidden : Obligations.LatchedOperandsOfAnIdleEngineAreHidden :=
  fun _ _ => step_sameButIdleEngine

/-- Settles O59, from the laws of Memory.write. -/
theorem memoryWritesAreReadBack : Obligations.MemoryWritesAreReadBack :=
  fun m a b v => ⟨m.read_write a b v, fun h => Memory.write_wf h a v⟩

/-- Settles O39: the fields for every STATUS, the words for those the invariant allows. -/
theorem statusReadsAsOneOfTheListedWords : Obligations.StatusReadsAsOneOfTheListedWords :=
  ⟨Status.word_fields, fun _ hinv => hinv.status_legal.word_mem,
    ⟨Status.reset_word, Status.started_word, Status.succeeded_word, Status.failed_word .emptyPayload,
      Status.failed_word .invalidCharacter, Status.failed_word .capacityExceeded, Status.failed_word .truncatedHeader,
      Status.failed_word .malformedLength⟩⟩

/-- Settles O40, from the eight values of STATUS that the invariant allows. -/
theorem statusFlagsExcludeEachOther : Obligations.StatusFlagsExcludeEachOther :=
  fun _ hinv => hinv.status_legal.flags

/-- Settles O4: power-on leaves the registers as the reset input does, and the memories list nothing. -/
theorem resetLeavesTheStatedValues : Obligations.ResetLeavesTheStatedValues :=
  ⟨resetInput_readReg State.reset, Status.reset_word, rfl, rfl, Memory.read_nil, Memory.read_nil⟩

/-- Settles O1: three words are the encodings of the commands (O2), and each of the others has a reserved field. -/
theorem commandWordsDecodeAsTheOpcodeMapSays : Obligations.CommandWordsDecodeAsTheOpcodeMapSays :=
  ⟨decode_encode .nop, decode_encode .encode, decode_encode .decode, decode_reservedOp (by decide) (by decide),
    decode_reservedBits (by decide), decode_reservedBits (by decide)⟩

end Sys2Proof.Proofs
end
